-- ==== Sys2Proof/Word.lean ====
section
/-! DEFINITION. The bit types of the block: a data byte, a 16-bit register address or length, a 32-bit host word and a line level. -/

namespace Sys2Proof

/-- A data, device-address or register-address byte (R7). -/
abbrev Byte := BitVec 8

/-- A 16-bit register address, or the length operand (R6, R7). -/
abbrev Half := BitVec 16

/-- A command word or a host register (R22, R70). -/
abbrev Word := BitVec 32

/-- A line level: `true` is 1, high or released; `false` is 0, low (R11). -/
abbrev Level := Bool

end Sys2Proof
end

