-- ==== Sys2Proof/Config.lean ====
section
/-! DEFINITION. What an implementation fixes (the parameters of 00_scope.md R6) and the free values: the constants without a body
that stand for what the spec leaves open. -/

namespace Sys2Proof

/-- The implementation parameters of 00_scope.md R6. Durations are in microseconds. LEN_BITS is the width of `State.len`. -/
structure Params where
  tSettle : Nat
  tBit : Nat
  tAck : Nat
  tPoll : Nat
  tWackSettle : Nat
  /-- The most SDA samples one WAIT_ACK takes. -/
  ackPollMax : Nat
  /-- The size of the DATA buffer in bytes. -/
  bufBytes : Nat
  /-- The host bus address of the register window. -/
  base : Nat
  deriving DecidableEq, Repr

/-- The ranges R6 states: ACK_POLL_MAX is at least 1, BUF_BYTES is 1 to 65535. -/
abbrev Params.wf (p : Params) : Prop :=
  1 ≤ p.ackPollMax ∧ 1 ≤ p.bufBytes ∧ p.bufBytes ≤ 65535

/-- BUF_BYTES less one: `OPEN` in the spec (R6, D18), so it has no body here. -/
opaque Config.bufBytesLessOne : Fin 65535

/-- BUF_BYTES of the machine that `State.reset` describes: some size from 1 to 65535 (R6). -/
def Config.bufBytes : Nat := Config.bufBytesLessOne.val + 1

/-- BASE of the machine that `State.reset` describes: `OPEN` in the spec (R6, D9). -/
opaque Config.base : Nat

/-- The free answers of `SAMPLE()` (R31), by a counter. Nothing constrains them. -/
opaque Config.peerLevel : Nat → Bool

/-- The free draws of `CONFIGURE()` and `RELEASE()` and the levels CONFIGURE leaves (R182), by a counter. -/
opaque Config.lineControlDraw : Nat → Bool

/-- The reference values of R6, with the two `OPEN` parameters free. -/
def Config.reference : Params where
  tSettle := 15
  tBit := 10
  tAck := 20
  tPoll := 20
  tWackSettle := 15
  ackPollMax := 500
  bufBytes := Config.bufBytes
  base := Config.base

/-- The host bus address of a window offset (R56: offsets are relative to BASE). -/
def Params.addressOf (p : Params) (off : Nat) : Nat := p.base + off

/-- The window offset of a host bus address, where the address is not below the window (R56). -/
def Params.offsetOf (p : Params) (addr : Nat) : Option Nat :=
  if p.base ≤ addr then some (addr - p.base) else none

end Sys2Proof
end

