-- ==== Sys2Proof/Syntax.lean ====
section
/-! DEFINITION. The thirteen commands with their operands (one constructor per row of spec/opcode_table.json), their mnemonics,
and the assembler's lines and host statements as abstract syntax (R81 to R83). -/

namespace Sys2Proof

/-- A command. Each operand has exactly its field's width (R72, R73), so no operand can be out of range. -/
inductive Instr where
  /-- R180. -/
  | init
  /-- R181. -/
  | deinit
  /-- R110. -/
  | start
  /-- R111. -/
  | stop
  /-- R112: BYTE. -/
  | sendByte (byte : Byte)
  /-- R113. -/
  | waitAck
  /-- R114: ACKF, `true` to acknowledge the byte. -/
  | readByte (ackf : Bool)
  /-- R150: ADDR8. -/
  | writeCommand (addr : Byte)
  /-- R151: ADDR8, REG8. -/
  | write (addr reg : Byte)
  /-- R152: ADDR8, REG16. -/
  | writeAddress16 (addr : Byte) (reg : Half)
  /-- R153: ADDR8, REG8. -/
  | read (addr reg : Byte)
  /-- R154: ADDR8, REG16. -/
  | readAddress16 (addr : Byte) (reg : Half)
  /-- R155: ADDR8. -/
  | readCommand (addr : Byte)
  deriving DecidableEq, Repr

/-- The thirteen mnemonics of R74. -/
inductive Mnemonic where
  | INIT | DEINIT | START | STOP | SEND_BYTE | WAIT_ACK | READ_BYTE
  | WRITE_COMMAND | WRITE | WRITE_ADDRESS16 | READ | READ_ADDRESS16 | READ_COMMAND
  deriving DecidableEq, Repr

/-- The row of R74 a command belongs to. -/
def Instr.mnemonic : Instr → Mnemonic
  | .init => .INIT
  | .deinit => .DEINIT
  | .start => .START
  | .stop => .STOP
  | .sendByte _ => .SEND_BYTE
  | .waitAck => .WAIT_ACK
  | .readByte _ => .READ_BYTE
  | .writeCommand _ => .WRITE_COMMAND
  | .write _ _ => .WRITE
  | .writeAddress16 _ _ => .WRITE_ADDRESS16
  | .read _ _ => .READ
  | .readAddress16 _ _ => .READ_ADDRESS16
  | .readCommand _ => .READ_COMMAND

/-- Whether a command is one of the six protocol commands (R15), which alone read LEN (R72, R77). -/
def Instr.isProtocol : Instr → Bool
  | .init | .deinit | .start | .stop | .sendByte _ | .waitAck | .readByte _ => false
  | .writeCommand _ | .write _ _ | .writeAddress16 _ _ | .read _ _ | .readAddress16 _ _ | .readCommand _ => true

/-- Whether a command is one of the three read commands, which alone write DATA (R52, R76). -/
def Instr.isProtocolRead : Instr → Bool
  | .init | .deinit | .start | .stop | .sendByte _ | .waitAck | .readByte _ => false
  | .writeCommand _ | .write _ _ | .writeAddress16 _ _ => false
  | .read _ _ | .readAddress16 _ _ | .readCommand _ => true

/-- An assembler command line (R81): its operands are unsigned literals, not yet checked against the field widths. -/
inductive AsmLine where
  | init
  | deinit
  | start
  | stop
  | sendByte (byte : Nat)
  | waitAck
  | readByte (ack : Bool)
  | writeCommand (addr : Nat)
  | write (addr reg : Nat)
  | writeAddress16 (addr reg : Nat)
  | read (addr reg : Nat)
  | readAddress16 (addr reg : Nat)
  | readCommand (addr : Nat)
  deriving DecidableEq, Repr

/-- A line of a host program: a command line, a host statement (R82) or a pseudo-instruction (R83). -/
inductive HostLine where
  | command (line : AsmLine)
  /-- `len N`. -/
  | len (n : Nat)
  /-- `data J, B`. -/
  | data (j b : Nat)
  /-- `data J, [B0, B1, ...]`. -/
  | dataList (j : Nat) (bs : List Nat)
  /-- `rd status`. -/
  | rdStatus
  /-- `rd rx`. -/
  | rdRx
  /-- `rd data J`. -/
  | rdData (j : Nat)
  | probe (addr : Nat)
  | sendc (byte : Nat)
  | wreg8 (addr reg byte : Nat)
  | rreg8 (addr reg : Nat)
  deriving DecidableEq, Repr

end Sys2Proof
end

