-- ==== Sys2Proof/WellFormed.lean ====
section
/-! DEFINITION. Which instructions and which assembler lines are well-formed. -/

namespace Sys2Proof

/-- Every value of `Instr` is well-formed: its operands have their fields' widths by type (R73), so the range checks of R81
stand on the assembler's lines, `AsmLine.fits`. -/
def Instr.wellFormed : Instr → Bool
  | .init => true
  | .deinit => true
  | .start => true
  | .stop => true
  | .sendByte _ => true
  | .waitAck => true
  | .readByte _ => true
  | .writeCommand _ => true
  | .write _ _ => true
  | .writeAddress16 _ _ => true
  | .read _ _ => true
  | .readAddress16 _ _ => true
  | .readCommand _ => true

/-- A literal fits a byte field (BYTE, ADDR8, REG8; R81). -/
def fitsByte (n : Nat) : Bool := decide (n < 2 ^ 8)

/-- A literal fits REG16 (R81). -/
def fitsHalf (n : Nat) : Bool := decide (n < 2 ^ 16)

/-- A literal fits a 32-bit host write (R82). -/
def fitsWord (n : Nat) : Bool := decide (n < 2 ^ 32)

/-- R81: "An operand that does not fit its field width is an assembler error". -/
def AsmLine.fits : AsmLine → Bool
  | .init => true
  | .deinit => true
  | .start => true
  | .stop => true
  | .sendByte b => fitsByte b
  | .waitAck => true
  | .readByte _ => true
  | .writeCommand a => fitsByte a
  | .write a r => fitsByte a && fitsByte r
  | .writeAddress16 a r => fitsByte a && fitsHalf r
  | .read a r => fitsByte a && fitsByte r
  | .readAddress16 a r => fitsByte a && fitsHalf r
  | .readCommand a => fitsByte a

/-- The same check for a host line: a length fits the 32-bit LEN write, a data byte fits a cell, every command of a
pseudo-instruction fits its fields. -/
def HostLine.fits : HostLine → Bool
  | .command l => l.fits
  | .len n => fitsWord n
  | .data _ b => fitsByte b
  | .dataList _ bs => bs.all fitsByte
  | .rdStatus => true
  | .rdRx => true
  | .rdData _ => true
  | .probe a => fitsByte a
  | .sendc b => fitsByte b
  | .wreg8 a r b => fitsByte a && fitsByte r && fitsByte b
  | .rreg8 a r => fitsByte a && fitsByte r

end Sys2Proof
end

