-- ==== Sys2Proof/Decode.lean ====
section
/-! DEFINITION. The command word's fields (R70), the decoder (R71 to R78), total on every word and rejecting by name, the
encoder written from the same tables, R75's mask and match table, and the assembler of a command line (R81). -/

namespace Sys2Proof

/-- The five fields of a command word (R70). -/
structure Fields where
  op : BitVec 4
  a : BitVec 1
  z : BitVec 3
  b : Byte
  g : Half
  deriving DecidableEq, Repr

/-- The fields of a word, each straight from its bits (R70, R73). -/
def fieldsOf (w : Word) : Fields where
  op := w.extractLsb' 0 4
  a := w.extractLsb' 4 1
  z := w.extractLsb' 5 3
  b := w.extractLsb' 8 8
  g := w.extractLsb' 16 16

/-- The word of five fields (the bit layout of R70; with Z = 0 the assembler's formula of R81). -/
def pack (f : Fields) : Word :=
  f.g.setWidth 32 <<< 16 ||| f.b.setWidth 32 <<< 8 ||| f.z.setWidth 32 <<< 5 ||| f.a.setWidth 32 <<< 4 |||
    f.op.setWidth 32

/-- Why a word is illegal (R78). -/
inductive Illegal where
  /-- OP is 0x0, 0xE or 0xF (R78, item 1). -/
  | opcode
  /-- A must-be-0 field is not 0 (R78, item 2). -/
  | mustBeZero
  deriving DecidableEq, Repr

/-- The command where the must-be-0 fields are 0, a rejection by name where they are not (R72, R78). -/
def ifZero (zero : Bool) (i : Instr) : Except Illegal Instr :=
  if zero then .ok i else .error .mustBeZero

/-- A, Z, B and G are 0. -/
def zeroAZBG (f : Fields) : Bool := f.a == 0 && f.z == 0 && f.b == 0 && f.g == 0

/-- A, Z and G are 0. -/
def zeroAZG (f : Fields) : Bool := f.a == 0 && f.z == 0 && f.g == 0

/-- Z, B and G are 0. -/
def zeroZBG (f : Fields) : Bool := f.z == 0 && f.b == 0 && f.g == 0

/-- A, Z and G[15:8] are 0. -/
def zeroAZGHigh (f : Fields) : Bool := f.a == 0 && f.z == 0 && f.g.extractLsb' 8 8 == 0

/-- A and Z are 0. -/
def zeroAZ (f : Fields) : Bool := f.a == 0 && f.z == 0

/-- The command of five fields: the opcode map of R74 with R72's operands and must-be-0 fields. -/
def decodeFields (f : Fields) : Except Illegal Instr :=
  match f.op.toNat with
  | 0x1 => ifZero (zeroAZBG f) .init
  | 0x2 => ifZero (zeroAZBG f) .deinit
  | 0x3 => ifZero (zeroAZBG f) .start
  | 0x4 => ifZero (zeroAZBG f) .stop
  | 0x5 => ifZero (zeroAZG f) (.sendByte f.b)
  | 0x6 => ifZero (zeroAZBG f) .waitAck
  | 0x7 => ifZero (zeroZBG f) (.readByte (f.a == 1))
  | 0x8 => ifZero (zeroAZG f) (.writeCommand f.b)
  | 0x9 => ifZero (zeroAZGHigh f) (.write f.b (f.g.extractLsb' 0 8))
  | 0xA => ifZero (zeroAZ f) (.writeAddress16 f.b f.g)
  | 0xB => ifZero (zeroAZGHigh f) (.read f.b (f.g.extractLsb' 0 8))
  | 0xC => ifZero (zeroAZ f) (.readAddress16 f.b f.g)
  | 0xD => ifZero (zeroAZG f) (.readCommand f.b)
  | _ => .error .opcode

/-- Decode: a total function from any word to a command or ILLEGAL (R75). -/
def decode (w : Word) : Except Illegal Instr := decodeFields (fieldsOf w)

/-- The fields of a command (R72, R74). -/
def encodeFields : Instr → Fields
  | .init => ⟨0x1, 0, 0, 0, 0⟩
  | .deinit => ⟨0x2, 0, 0, 0, 0⟩
  | .start => ⟨0x3, 0, 0, 0, 0⟩
  | .stop => ⟨0x4, 0, 0, 0, 0⟩
  | .sendByte byte => ⟨0x5, 0, 0, byte, 0⟩
  | .waitAck => ⟨0x6, 0, 0, 0, 0⟩
  | .readByte ackf => ⟨0x7, BitVec.ofBool ackf, 0, 0, 0⟩
  | .writeCommand addr => ⟨0x8, 0, 0, addr, 0⟩
  | .write addr reg => ⟨0x9, 0, 0, addr, reg.setWidth 16⟩
  | .writeAddress16 addr reg => ⟨0xA, 0, 0, addr, reg⟩
  | .read addr reg => ⟨0xB, 0, 0, addr, reg.setWidth 16⟩
  | .readAddress16 addr reg => ⟨0xC, 0, 0, addr, reg⟩
  | .readCommand addr => ⟨0xD, 0, 0, addr, 0⟩

/-- Encode: the one word of a command (R70). -/
def encode (i : Instr) : Word := pack (encodeFields i)

/-- The match column of R75. -/
def Mnemonic.matchBits : Mnemonic → Word
  | .INIT => 0x00000001
  | .DEINIT => 0x00000002
  | .START => 0x00000003
  | .STOP => 0x00000004
  | .SEND_BYTE => 0x00000005
  | .WAIT_ACK => 0x00000006
  | .READ_BYTE => 0x00000007
  | .WRITE_COMMAND => 0x00000008
  | .WRITE => 0x00000009
  | .WRITE_ADDRESS16 => 0x0000000A
  | .READ => 0x0000000B
  | .READ_ADDRESS16 => 0x0000000C
  | .READ_COMMAND => 0x0000000D

/-- The mask column of R75. -/
def Mnemonic.maskBits : Mnemonic → Word
  | .INIT => 0xFFFFFFFF
  | .DEINIT => 0xFFFFFFFF
  | .START => 0xFFFFFFFF
  | .STOP => 0xFFFFFFFF
  | .SEND_BYTE => 0xFFFF00FF
  | .WAIT_ACK => 0xFFFFFFFF
  | .READ_BYTE => 0xFFFFFFEF
  | .WRITE_COMMAND => 0xFFFF00FF
  | .WRITE => 0xFF0000FF
  | .WRITE_ADDRESS16 => 0x000000FF
  | .READ => 0xFF0000FF
  | .READ_ADDRESS16 => 0x000000FF
  | .READ_COMMAND => 0xFFFF00FF

/-- A word lies in a mnemonic's row of R75. -/
def Mnemonic.rowHits (m : Mnemonic) (w : Word) : Bool := w &&& m.maskBits == m.matchBits

/-- The command of an assembler line whose operands are taken as the fields they fit (R81). -/
def AsmLine.command : AsmLine → Instr
  | .init => .init
  | .deinit => .deinit
  | .start => .start
  | .stop => .stop
  | .sendByte b => .sendByte (BitVec.ofNat 8 b)
  | .waitAck => .waitAck
  | .readByte ack => .readByte ack
  | .writeCommand a => .writeCommand (BitVec.ofNat 8 a)
  | .write a r => .write (BitVec.ofNat 8 a) (BitVec.ofNat 8 r)
  | .writeAddress16 a r => .writeAddress16 (BitVec.ofNat 8 a) (BitVec.ofNat 16 r)
  | .read a r => .read (BitVec.ofNat 8 a) (BitVec.ofNat 8 r)
  | .readAddress16 a r => .readAddress16 (BitVec.ofNat 8 a) (BitVec.ofNat 16 r)
  | .readCommand a => .readCommand (BitVec.ofNat 8 a)

/-- The assembler (R81): the word of a line whose operands fit, no word for any other line. -/
def assemble (l : AsmLine) : Option Word := if l.fits then some (encode l.command) else none

/-- The command the decoder reads from an instruction of `nbits` bits with value `w`, bit 0 the least significant, the bits
above `nbits` zero; none where the decoder refuses. -/
def decodeTableWord (nbits w : Nat) : Option Instr :=
  match decode (BitVec.ofNat 32 (w % 2 ^ nbits)) with
  | .ok i => some i
  | .error _ => none

end Sys2Proof
end

