-- ==== Sys2Proof/Machine/State.lean ====
section
/-! DEFINITION. The machine's state as plain data: the block's registers, DATA buffer, lifecycle and lines (R20 to R30), the
spec's bookkeeping (trace R32, FAULTS R33), the parameters (R6), and the model's own fields for what comes from outside the block
(host accesses, peer and Line Control answers). Also the reasons a step can stop, and the state after power-on. -/

namespace Sys2Proof.Machine

/-- The direction of the master's SDA pin (R29). -/
inductive Dir where
  /-- OUT. -/
  | output
  /-- IN. -/
  | input
  deriving DecidableEq, Repr

/-- The lifecycle state LC (R26). -/
inductive Lifecycle where
  | unconfigured
  | ready
  deriving DecidableEq, Repr

/-- The result codes of R25. Codes 6 and 7 have no name: they are never produced. -/
inductive Result where
  | none
  | ok
  | nack
  | configFail
  | illegal
  | notReady
  deriving DecidableEq, Repr

/-- The answer of `CONFIGURE()` (R182). With ok stand the two levels it left the lines at, which R182 makes draws of their own: so
the trace says every change of the line state (log entry 5). -/
inductive Configured where
  | fail
  | ok (scl sda : Level)
  deriving DecidableEq, Repr

/-- A line event with its argument or answer (R100). -/
inductive Event where
  /-- `DIR(d)`. -/
  | dir (d : Dir)
  /-- `SDA(b)`. -/
  | sda (b : Level)
  /-- `SCL(b)`. -/
  | scl (b : Level)
  /-- `WAIT(t)`, in microseconds. -/
  | wait (t : Nat)
  /-- `SAMPLE() -> s`. -/
  | sample (s : Level)
  /-- `CONFIGURE() -> ok/fail`. -/
  | configure (answer : Configured)
  /-- `RELEASE() -> ok/fail`. -/
  | release (ok : Bool)
  deriving DecidableEq, Repr

/-- The line state (R29): each field holds a value or is unspecified, `none`. -/
@[ext]
structure Lines where
  sclOut : Option Level
  sdaDir : Option Dir
  sdaOut : Option Level
  deriving DecidableEq, Repr

/-- All three line fields unspecified (R29, R36). -/
def Lines.unspecified : Lines := ⟨none, none, none⟩

/-- The idle bus: SDA_DIR = OUT, SDA_OUT = 1, SCL_OUT = 1 (R111). -/
def Lines.idle : Lines := ⟨some true, some .output, some true⟩

/-- The model fault kinds of R208. -/
inductive FaultKind where
  /-- F_ILLEGAL. -/
  | illegal
  /-- F_NOT_READY. -/
  | notReady
  /-- F_CONCURRENT. -/
  | concurrent
  /-- F_UNWRITTEN. -/
  | unwritten
  /-- F_ACCESS. -/
  | access
  deriving DecidableEq, Repr

/-- FAULTS, a set of fault kinds (R33): each kind is in it or not. -/
structure FaultSet where
  illegal : Bool
  notReady : Bool
  concurrent : Bool
  unwritten : Bool
  access : Bool
  deriving DecidableEq, Repr

/-- The empty FAULTS of power-on (R33). -/
def FaultSet.empty : FaultSet := ⟨false, false, false, false, false⟩

/-- A host bus access: its direction, its width in bits, its window offset relative to BASE and what it writes (R55, R56). -/
inductive Access where
  | read8 (off : Nat)
  | read16 (off : Nat)
  | read32 (off : Nat)
  | write8 (off : Nat) (v : Byte)
  | write16 (off : Nat) (v : Half)
  | write32 (off : Nat) (v : Word)
  deriving DecidableEq, Repr

/-- What reaches the block from outside, one entry a step. -/
inductive HostEvent where
  /-- An access the host makes while no command runs (R60). -/
  | access (a : Access)
  /-- An access any agent makes while the command before it in the list is running (R62). -/
  | overlap (a : Access)
  /-- The reset event (R36, R230), whether or not it comes while a command is running: the command it abandons is then no entry
  of the list, since nothing of it is left in the block's state (log entry 7). -/
  | reset
  deriving DecidableEq, Repr

/-- What the last host access answered. The model's own bookkeeping, not hardware state (log entry 3). -/
inductive Answer where
  /-- No access has been made. -/
  | none
  /-- A write the block took; a write to CMD completes with its command, in the same step (R60). -/
  | written
  /-- The value of a 32-bit register read. -/
  | word (v : Word)
  /-- The value of a DATA cell. -/
  | byte (v : Byte)
  /-- A read of a DATA cell that holds no value (R51). -/
  | noValue
  /-- A refused access (R55). -/
  | refused
  deriving DecidableEq, Repr

/-- The answers of an agent outside the block: those given, in order, and after them the free constant of Config at the count of
answers taken. -/
@[ext]
structure Draws where
  queue : List Bool
  used : Nat
  deriving DecidableEq, Repr

/-- The state. -/
@[ext]
structure State where
  /-- The implementation parameters (R6); no step changes them. -/
  params : Params
  /-- LEN[15:0] (R23); LEN[31:16] has no storage. -/
  len : Half
  /-- STATUS.RESULT (R24, R25). -/
  result : Result
  /-- RXDATA.RX (R27); RXDATA[31:8] has no storage. -/
  rx : Byte
  /-- LC (R26); STATUS.READY is a view of it. -/
  lc : Lifecycle
  /-- SCL_OUT, SDA_DIR and SDA_OUT (R29). -/
  lines : Lines
  /-- The DATA cells that hold a byte, indexes strictly rising (R28); an unlisted cell holds no value. -/
  data : List Host.Cell
  /-- Every line event since reset, oldest first (R32). -/
  trace : List Event
  /-- FAULTS (R33). -/
  faults : FaultSet
  /-- The model's own: the accesses and resets still to come (log entry 2). -/
  host : List HostEvent
  /-- The model's own: the answer of the last host access (log entry 3). -/
  answer : Answer
  /-- The model's own: the answers of `SAMPLE()` still to come (R31, log entry 4). -/
  peer : Draws
  /-- The model's own: the draws of `CONFIGURE()` and `RELEASE()` still to come (R182, log entry 5). -/
  lineControl : Draws
  deriving DecidableEq, Repr

/-- Why the machine stops. -/
inductive Fault where
  /-- Raised by a write command (R150 to R152) whose MemRead meets a cell that holds no value: "the state is faulted; nothing
  after it has meaning" (R52, R204). Carries the cell's index and the faulted state, with every effect up to the MemRead and
  F_UNWRITTEN recorded. Safe: the hardware would send an unspecified byte and go on, and the model claims nothing of it. -/
  | unwritten (cell : Nat) (state : State)
  deriving DecidableEq, Repr

/-- Why the model gives no meaning. -/
inductive Refusal where
  /-- Raised by exec for a command that has no meaning yet; no command is left so. Safe: nothing is claimed of it. -/
  | notModelled (mnemonic : String)
  deriving DecidableEq, Repr

/-- The machine at power-on: every value of R36's table, FAULTS empty (R33), the parameters of R6, and nothing given yet from
outside (log entries 1 to 5). -/
def State.reset : State where
  params := Config.reference
  len := 0
  result := .none
  rx := 0
  lc := .unconfigured
  lines := Lines.unspecified
  data := []
  trace := []
  faults := FaultSet.empty
  host := []
  answer := .none
  peer := ⟨[], 0⟩
  lineControl := ⟨[], 0⟩

end Sys2Proof.Machine
end

