-- ==== Sys2Proof/Machine/Ops.lean ====
section
/-! DEFINITION. The named operations over the state: DATA cells (R51, R52), line events (R100), the draws of the peer and of Line
Control (R31, R182), recording a fault kind (R208) and the reset event (R36).

The spec has no exception: "There is no trap entry: nothing is saved, no mode changes and no vector is taken" and "There is no
return instruction" (R206). What stands in the place of both is `complete`, in Flags.lean. -/

namespace Sys2Proof.Machine

/-- What a step or a meaning answers. -/
abbrev Out := Host.Outcome State Fault Refusal

/-! ### DATA -/

/-- The byte a cell holds, none where it holds no value (R28). -/
def cellAt : List Host.Cell → Nat → Option Byte
  | [], _ => none
  | (a, b) :: m, j => if a = j then some b else cellAt m j

/-- The cells with cell `j` holding `v`: the list stays sorted by index. -/
def setCell (j : Nat) (v : Byte) : List Host.Cell → List Host.Cell
  | [] => [(j, v)]
  | (a, b) :: m =>
    if j < a then (j, v) :: (a, b) :: m
    else if j = a then (j, v) :: m
    else (a, b) :: setCell j v m

/-- Every index of the list is above `j`, and they rise strictly. -/
def cellsAbove (j : Nat) : List Host.Cell → Bool
  | [] => true
  | (a, _) :: m => decide (j < a) && cellsAbove a m

/-- The canonical form of DATA: indexes strictly rising. An unlisted cell holds no value, so no entry can repeat that. -/
def Memory.wf : List Host.Cell → Bool
  | [] => true
  | (a, _) :: m => cellsAbove a m

/-- `MemRead(j, 1)` (R52): the byte, or none where the cell holds no value. -/
def memRead (j : Nat) (s : State) : Option Byte := cellAt s.data j

/-- `MemWrite(j, 1, v)` (R52). -/
def memWrite (j : Nat) (v : Byte) (s : State) : State := { s with data := setCell j v s.data }

/-! ### FAULTS -/

/-- Whether a kind is in FAULTS. -/
def FaultSet.has (f : FaultSet) : FaultKind → Bool
  | .illegal => f.illegal
  | .notReady => f.notReady
  | .concurrent => f.concurrent
  | .unwritten => f.unwritten
  | .access => f.access

/-- FAULTS with one kind more (R208: sticky). -/
def FaultSet.add (f : FaultSet) : FaultKind → FaultSet
  | .illegal => { f with illegal := true }
  | .notReady => { f with notReady := true }
  | .concurrent => { f with concurrent := true }
  | .unwritten => { f with unwritten := true }
  | .access => { f with access := true }

/-- `fault(kind)` (R9, R208). -/
def recordFault (k : FaultKind) (s : State) : State := { s with faults := s.faults.add k }

/-! ### Line events -/

/-- The effect of an event on the line state (R100). `CONFIGURE() -> ok` makes both lines outputs at the levels it drew; a failed
CONFIGURE and every RELEASE leave all fields unspecified (R182). -/
def linesAfter (e : Event) (l : Lines) : Lines :=
  match e with
  | .dir d => { l with sdaDir := some d }
  | .sda b => { l with sdaOut := some b }
  | .scl b => { l with sclOut := some b }
  | .wait _ => l
  | .sample _ => l
  | .configure (.ok scl sda) => ⟨some scl, some .output, some sda⟩
  | .configure .fail => Lines.unspecified
  | .release _ => Lines.unspecified

/-- The line state after a list of events. -/
def linesAfterAll (es : List Event) (l : Lines) : Lines := es.foldl (fun l e => linesAfter e l) l

/-- Emit one event: it takes effect on the lines and is appended to the trace (R65, R100). -/
def emit (e : Event) (s : State) : State :=
  { s with lines := linesAfter e s.lines, trace := s.trace ++ [e] }

/-- Emit events in order. -/
def emitAll (es : List Event) (s : State) : State := es.foldl (fun s e => emit e s) s

/-! ### Draws -/

/-- The `k`-th answer still to come (from 0): a given one, or the free one after the given ones. -/
def drawAt (free : Nat → Bool) (d : Draws) (k : Nat) : Bool := (d.queue[k]?).getD (free (d.used + k))

/-- The draws after one answer is taken. -/
def drawRest (d : Draws) : Draws := { queue := d.queue.tail, used := d.used + 1 }

/-- The draws after `k` answers are taken. -/
def drawSkip (k : Nat) (d : Draws) : Draws := { queue := d.queue.drop k, used := d.used + k }

/-- The `k`-th answer of `SAMPLE()` still to come. -/
def peerLevel (s : State) (k : Nat) : Level := drawAt Config.peerLevel s.peer k

/-- The `k`-th draw of Line Control still to come. -/
def lineControlDraw (s : State) (k : Nat) : Bool := drawAt Config.lineControlDraw s.lineControl k

/-- The state after `SAMPLE()`, whose answer is `peerLevel s 0` (R100). -/
def afterSample (s : State) : State :=
  { emit (.sample (peerLevel s 0)) s with peer := drawRest s.peer }

/-- The answer `CONFIGURE()` gives: `lineControlDraw s 0`, and on ok the two levels are two more draws (R182). -/
def configureAnswer (s : State) : Configured :=
  if lineControlDraw s 0 then .ok (lineControlDraw s 1) (lineControlDraw s 2) else .fail

/-- How many draws an answer of `CONFIGURE()` took (log entry 5). -/
def Configured.draws : Configured → Nat
  | .fail => 1
  | .ok _ _ => 3

/-- The state after `CONFIGURE()` (R182). -/
def afterConfigure (s : State) : State :=
  { emit (.configure (configureAnswer s)) s with lineControl := drawSkip (configureAnswer s).draws s.lineControl }

/-- The state after `RELEASE()`, whose answer is `lineControlDraw s 0` (R182). -/
def afterRelease (s : State) : State :=
  { emit (.release (lineControlDraw s 0)) s with lineControl := drawSkip 1 s.lineControl }

/-! ### Reset -/

/-- The reset event (R36, R230): the block's fields take the values of R36's table, no line event is emitted, FAULTS stays (C9).
What is not the block's (the parameters, the accesses to come, the outside answers) is not touched. -/
def applyReset (s : State) : State :=
  { s with
    len := 0
    result := .none
    rx := 0
    lc := .unconfigured
    lines := Lines.unspecified
    data := []
    trace := [] }

end Sys2Proof.Machine
end

