-- ==== Sys2Proof/Machine/Operands.lean ====
section
/-! DEFINITION. The operands a command takes from LEN and its word: the latched length (R71, R73), the register-address mode and
the direction of an opcode (R76), the register address multiplexer (R140) and the device address bytes (R141). -/

namespace Sys2Proof.Machine

/-- N = LEN[15:0], latched at the issue (R71, R73). -/
def latchedLength (s : State) : Nat := s.len.toNat

/-- The register-address mode (R3). -/
inductive RegMode where
  /-- NONE: no register phase. -/
  | noReg
  /-- ADR8: a one-byte register address. -/
  | adr8
  /-- ADR16: a two-byte register address, high byte first. -/
  | adr16
  deriving DecidableEq, Repr

/-- The mode is a function of OP alone (R76); opcodes outside R76's list have no register phase. -/
def modeOf (op : BitVec 4) : RegMode :=
  match op.toNat with
  | 0x9 => .adr8
  | 0xB => .adr8
  | 0xA => .adr16
  | 0xC => .adr16
  | _ => .noReg

/-- The direction is a function of OP alone (R76): whether a protocol opcode reads. -/
def readsOf (op : BitVec 4) : Bool :=
  match op.toNat with
  | 0xB => true
  | 0xC => true
  | 0xD => true
  | _ => false

/-- RegBytes(mode, G): the register-address bytes in wire order (R140). -/
def regBytes (mode : RegMode) (g : Half) : List Byte :=
  match mode with
  | .noReg => []
  | .adr8 => [g.extractLsb' 0 8]
  | .adr16 => [g.extractLsb' 8 8, g.extractLsb' 0 8]

/-- WADDR, the write form, sent exactly as supplied (R141). -/
def writeForm (addr : Byte) : Byte := addr

/-- RADDR = (ADDR8 + 1) mod 256, the read form (R141). -/
def readForm (addr : Byte) : Byte := addr + 1

end Sys2Proof.Machine
end

