-- ==== Sys2Proof/Machine/Flags.lean ====
section
/-! DEFINITION. The block's only flags, STATUS.RESULT and STATUS.READY (R24, R34), the register views of R22 to R27, completion
(R9) and the issue checks (R203). -/

namespace Sys2Proof.Machine

/-- The code of a result (R25). -/
def Result.code : Result → BitVec 3
  | .none => 0
  | .ok => 1
  | .nack => 2
  | .configFail => 3
  | .illegal => 4
  | .notReady => 5

/-- READY: 1 if and only if LC = READY (R24). -/
def readyBit (s : State) : BitVec 1 :=
  match s.lc with
  | .ready => 1
  | .unconfigured => 0

/-- The STATUS register (R24): RESULT in 2:0, READY in 4, the rest 0. -/
def statusWord (s : State) : Word := 
  (readyBit s).setWidth 32 <<< 4 ||| s.result.code.setWidth 32

/-- The LEN register (R23). -/
def lenWord (s : State) : Word := s.len.setWidth 32

/-- The RXDATA register (R27). -/
def rxWord (s : State) : Word := s.rx.setWidth 32

/-- A host write to LEN: bits 31:16 are ignored (R23). -/
def writeLen (v : Word) (s : State) : State := { s with len := v.extractLsb' 0 16 }

/-- `complete(code)` (R9): the one way a command ends, with `STATUS.RESULT <- code` (R201, R206). -/
def complete (code : Result) (s : State) : State := { s with result := code }

/-- An illegal issue (R78): F_ILLEGAL is recorded and RESULT is ILLEGAL, nothing else. -/
def illegalIssue (s : State) : State := complete .illegal (recordFault .illegal s)

/-- A command other than INIT with LC = UNCONFIGURED (R185, R203): F_NOT_READY is recorded and RESULT is NOT_READY. -/
def notReadyIssue (s : State) : State := complete .notReady (recordFault .notReady s)

/-- Issue check 2 of R203, then the command. -/
def whenReady (run : State → Out) (s : State) : Out :=
  match s.lc with
  | .ready => run s
  | .unconfigured => .next (notReadyIssue s)

/-- Issue checks 2 and 3 of R203 for a protocol command, then the command on N = LEN[15:0] (R71, R77). -/
def whenLengthFits (run : Nat → State → Out) (s : State) : Out :=
  whenReady
    (fun s =>
      if s.params.bufBytes < latchedLength s then .next (illegalIssue s)
      else run (latchedLength s) s)
    s

end Sys2Proof.Machine
end

