-- ==== Sys2Proof/Machine/Lifecycle.lean ====
section
/-! DEFINITION. The two lifecycle commands (R180 to R185). -/

namespace Sys2Proof.Machine

/-- INIT() (R180), in either lifecycle state (R184). -/
def initSeq (s : State) : State :=
  match configureAnswer s with
  | .ok _ _ => complete .ok { emitAll [.scl true, .sda true] (afterConfigure s) with lc := .ready }
  | .fail => complete .configFail { afterConfigure s with lc := .unconfigured, lines := Lines.unspecified }

/-- INIT (R180): the one command that no issue check after decode can stop (R203). -/
def execInit (s : State) : Out := .next (initSeq s)

/-- DEINIT() (R181): LC is UNCONFIGURED and the lines unspecified whatever RELEASE answers. -/
def deinitSeq (s : State) : State :=
  complete (if lineControlDraw s 0 then .ok else .configFail)
    { afterRelease s with lc := .unconfigured, lines := Lines.unspecified }

/-- DEINIT (R181). -/
def execDeinit (s : State) : Out := whenReady (fun s => .next (deinitSeq s)) s

end Sys2Proof.Machine
end

