-- ==== Sys2Proof/Machine/Engine.lean ====
section
/-! DEFINITION. The bit-level transaction engine: the line sequences of START, STOP, SEND_BYTE, WAIT_ACK, READ_BYTE and the
internal ACK_SEQ and NACK_SEQ (R110 to R116). Protocol commands run them inline; they write no RESULT here (R103). -/

namespace Sys2Proof.Machine

/-- START()'s events (R110). -/
def startEvents (p : Params) : List Event :=
  [.dir .output, .sda true, .scl true, .wait p.tSettle, .sda false, .wait p.tSettle, .scl false]

/-- START() (R110). -/
def startSeq (s : State) : State := emitAll (startEvents s.params) s

/-- STOP()'s events (R111). -/
def stopEvents (p : Params) : List Event :=
  [.dir .output, .sda false, .wait p.tSettle, .scl true, .wait p.tSettle, .sda true]

/-- STOP() (R111). -/
def stopSeq (s : State) : State := emitAll (stopEvents s.params) s

/-- One bit cell of SEND_BYTE (R112). -/
def bitCell (p : Params) (b : Level) : List Event :=
  [.sda b, .wait p.tBit, .scl true, .wait p.tBit, .scl false, .wait p.tBit]

/-- The bits of a byte, most-significant first (R53). -/
def bitsMsbFirst (b : Byte) : List Level :=
  [b.getLsbD 7, b.getLsbD 6, b.getLsbD 5, b.getLsbD 4, b.getLsbD 3, b.getLsbD 2, b.getLsbD 1, b.getLsbD 0]

/-- SEND_BYTE(b)'s events (R112). -/
def sendByteEvents (p : Params) (b : Byte) : List Event :=
  .dir .output :: (bitsMsbFirst b).flatMap (bitCell p)

/-- SEND_BYTE(b) (R112). -/
def sendByteSeq (b : Byte) (s : State) : State := emitAll (sendByteEvents s.params b) s

/-- The outcome of WAIT_ACK (R113). -/
inductive AckOutcome where
  | ack
  | nack
  deriving DecidableEq, Repr

/-- WAIT_ACK's events before its first poll (R113). -/
def ackSetupEvents (p : Params) : List Event :=
  [.dir .input, .sda true, .wait p.tWackSettle, .scl true]

/-- WAIT_ACK's poll loop (R113), with at most `more` samples after this one: ACK on the first sample that is 0, else STOP and
NACK after the last. -/
def pollAck (more : Nat) (s : State) : AckOutcome × State :=
  match peerLevel s 0, more with
  | false, _ => (.ack, emit (.scl false) (afterSample s))
  | true, 0 => (.nack, stopSeq (afterSample s))
  | true, k + 1 => pollAck k (emit (.wait s.params.tPoll) (afterSample s))

/-- WAIT_ACK() (R113): at most ACK_POLL_MAX samples, and R6 puts ACK_POLL_MAX at 1 or more. -/
def waitAckSeq (s : State) : AckOutcome × State :=
  pollAck (s.params.ackPollMax - 1) (emitAll (ackSetupEvents s.params) s)

/-- ACK_SEQ()'s events with SDA low (R115), NACK_SEQ()'s with SDA high (R116). -/
def masterAckEvents (p : Params) (sda : Level) : List Event :=
  [.scl false, .wait p.tAck, .dir .output, .sda sda, .wait p.tAck, .scl true, .wait p.tAck, .scl false, .wait p.tAck]

/-- ACK_SEQ() (R115). -/
def ackSeq (s : State) : State := emitAll (masterAckEvents s.params false) s

/-- NACK_SEQ() (R116). -/
def nackSeq (s : State) : State := emitAll (masterAckEvents s.params true) s

/-- One bit cell of READ_BYTE (R114), whose sample is `peerLevel s 0`. -/
def readBit (s : State) : State :=
  emit (.wait s.params.tBit) (afterSample (emitAll [.scl false, .wait s.params.tBit, .scl true] s))

/-- `r <- ((r << 1) | s)[7:0]` (R114). -/
def shiftIn (r : Byte) (b : Level) : Byte := (r <<< 1) ||| (BitVec.ofBool b).setWidth 8

/-- READ_BYTE's bit loop (R114): `n` more bits shifted into `r`. -/
def readBits (n : Nat) (r : Byte) (s : State) : Byte × State :=
  match n with
  | 0 => (r, s)
  | k + 1 => readBits k (shiftIn r (peerLevel s 0)) (readBit s)

/-- READ_BYTE(ackf) (R114): the byte received and the state after the master's acknowledge. -/
def readByteSeq (ackf : Bool) (s : State) : Byte × State :=
  match readBits 8 0 (emit (.dir .input) s) with
  | (r, t) => (r, if ackf then ackSeq t else nackSeq t)

end Sys2Proof.Machine
end

