-- ==== Sys2Proof/Machine/Primitive.lean ====
section
/-! DEFINITION. The five primitive commands (R110 to R114), each behind the issue check of R203. -/

namespace Sys2Proof.Machine

/-- START (R110). -/
def execStart (s : State) : Out := whenReady (fun s => .next (complete .ok (startSeq s))) s

/-- STOP (R111). -/
def execStop (s : State) : Out := whenReady (fun s => .next (complete .ok (stopSeq s))) s

/-- SEND_BYTE (R112). -/
def execSendByte (byte : Byte) (s : State) : Out :=
  whenReady (fun s => .next (complete .ok (sendByteSeq byte s))) s

/-- The result WAIT_ACK reports as a command (R113). -/
def ackResult : AckOutcome → Result
  | .ack => .ok
  | .nack => .nack

/-- WAIT_ACK (R113). -/
def execWaitAck (s : State) : Out :=
  whenReady (fun s => .next (complete (ackResult (waitAckSeq s).1) (waitAckSeq s).2)) s

/-- READ_BYTE (R114): RXDATA takes the byte. -/
def execReadByte (ackf : Bool) (s : State) : Out :=
  whenReady
    (fun s => .next (complete .ok { (readByteSeq ackf s).2 with rx := (readByteSeq ackf s).1 })) s

end Sys2Proof.Machine
end

