-- ==== Sys2Proof/Machine/Protocol.lean ====
section
/-! DEFINITION. The register protocol layer: SEND_CHECKED (R142), WRITE_GEN (R144), READ_GEN (R145) and the six protocol
commands (R150 to R155). -/

namespace Sys2Proof.Machine

/-- Where a protocol command stands. -/
inductive Flow where
  /-- Every byte so far was acknowledged. -/
  | go (s : State)
  /-- The command has completed with NACK; no further line event follows (R142). -/
  | abort (s : State)
  /-- A MemRead met a cell that holds no value (R52). -/
  | stuck (f : Fault)

/-- Go on where the command has not ended. -/
def Flow.andThen (x : Flow) (f : State → Flow) : Flow :=
  match x with
  | .go s => f s
  | .abort s => .abort s
  | .stuck e => .stuck e

/-- The command's outcome: where it has not ended, STOP and `complete(OK)` end it (R144, R145). -/
def Flow.finish : Flow → Out
  | .go s => .next (complete .ok (stopSeq s))
  | .abort s => .next s
  | .stuck e => .fault e

/-- SEND_CHECKED(b) (R142): on NACK, WAIT_ACK has already run STOP. -/
def sendChecked (b : Byte) (s : State) : Flow :=
  match waitAckSeq (sendByteSeq b s) with
  | (.ack, t) => .go t
  | (.nack, t) => .abort (complete .nack t)

/-- SEND_CHECKED of each byte of a list, in order. -/
def sendAll : List Byte → State → Flow
  | [], s => .go s
  | b :: bs, s => (sendChecked b s).andThen (fun t => sendAll bs t)

/-- The write data phase (R143, R144): `n` more bytes from cell `j` on, each read just before it is sent (R52). -/
def sendData (n : Nat) (j : Nat) (s : State) : Flow :=
  match n with
  | 0 => .go s
  | k + 1 =>
    match memRead j s with
    | none => .stuck (.unwritten j (recordFault .unwritten s))
    | some b => (sendChecked b s).andThen (fun t => sendData k (j + 1) t)

/-- WRITE_GEN(mode, ADDR8, G, N) (R144). -/
def writeGen (mode : RegMode) (addr : Byte) (g : Half) (n : Nat) (s : State) : Out :=
  ((sendAll (writeForm addr :: regBytes mode g) (startSeq s)).andThen (fun t => sendData n 0 t)).finish

/-- The read data phase (R143, R145): `n` more bytes into cell `j` on, NACK on the last byte only. -/
def receive (n : Nat) (j : Nat) (s : State) : State :=
  match n with
  | 0 => s
  | k + 1 =>
    receive k (j + 1) (memWrite j (readByteSeq (k != 0) s).1 (readByteSeq (k != 0) s).2)

/-- READ_GEN's opening (R145): START, and with a register phase the write-form address, the register bytes and a repeated
START. -/
def readOpening (mode : RegMode) (addr : Byte) (g : Half) (s : State) : Flow :=
  if mode = .noReg then .go (startSeq s)
  else (sendAll (writeForm addr :: regBytes mode g) (startSeq s)).andThen (fun t => .go (startSeq t))

/-- READ_GEN(mode, ADDR8, G, N) (R145). -/
def readGen (mode : RegMode) (addr : Byte) (g : Half) (n : Nat) (s : State) : Out :=
  (((readOpening mode addr g s).andThen (fun t => sendChecked (readForm addr) t)).andThen
    (fun t => .go (receive n 0 t))).finish

/-- The general sequence an opcode runs: its direction and its mode are functions of OP alone (R76). -/
def protocolGen (op : BitVec 4) (addr : Byte) (g : Half) (n : Nat) (s : State) : Out :=
  if readsOf op then readGen (modeOf op) addr g n s else writeGen (modeOf op) addr g n s

/-- WRITE_COMMAND (R150). -/
def execWriteCommand (addr : Byte) (s : State) : Out :=
  whenLengthFits (fun n s => protocolGen 0x8 addr 0 n s) s

/-- WRITE (R151). -/
def execWrite (addr reg : Byte) (s : State) : Out :=
  whenLengthFits (fun n s => protocolGen 0x9 addr (reg.setWidth 16) n s) s

/-- WRITE_ADDRESS16 (R152). -/
def execWriteAddress16 (addr : Byte) (reg : Half) (s : State) : Out :=
  whenLengthFits (fun n s => protocolGen 0xA addr reg n s) s

/-- READ (R153). -/
def execRead (addr reg : Byte) (s : State) : Out :=
  whenLengthFits (fun n s => protocolGen 0xB addr (reg.setWidth 16) n s) s

/-- READ_ADDRESS16 (R154). -/
def execReadAddress16 (addr : Byte) (reg : Half) (s : State) : Out :=
  whenLengthFits (fun n s => protocolGen 0xC addr reg n s) s

/-- READ_COMMAND (R155). -/
def execReadCommand (addr : Byte) (s : State) : Out :=
  whenLengthFits (fun n s => protocolGen 0xD addr 0 n s) s

end Sys2Proof.Machine
end

