-- ==== Sys2Proof/Machine/Dispatch.lean ====
section
/-! DEFINITION. One arm per command. -/

namespace Sys2Proof.Machine

def exec (i : Instr) (s : State) : Host.Outcome State Fault Refusal :=
  match i with
  | .init => Sys2Proof.Machine.execInit s
  | .deinit => Sys2Proof.Machine.execDeinit s
  | .start => Sys2Proof.Machine.execStart s
  | .stop => Sys2Proof.Machine.execStop s
  | .sendByte byte => Sys2Proof.Machine.execSendByte byte s
  | .waitAck => Sys2Proof.Machine.execWaitAck s
  | .readByte ackf => Sys2Proof.Machine.execReadByte ackf s
  | .writeCommand addr => Sys2Proof.Machine.execWriteCommand addr s
  | .write addr reg => Sys2Proof.Machine.execWrite addr reg s
  | .writeAddress16 addr reg => Sys2Proof.Machine.execWriteAddress16 addr reg s
  | .read addr reg => Sys2Proof.Machine.execRead addr reg s
  | .readAddress16 addr reg => Sys2Proof.Machine.execReadAddress16 addr reg s
  | .readCommand addr => Sys2Proof.Machine.execReadCommand addr s

end Sys2Proof.Machine
end

