-- ==== Sys2Proof/Machine/HostPort.lean ====
section
/-! DEFINITION. The host's side: the register window (R51, R55 to R58), a concurrent access (R62), the reset event (R36), and
fetching the next entry of `host`, which is how a command word reaches the block (R22, R71). -/

namespace Sys2Proof.Machine

/-- What the next entry of `host` gives: a state with no command to run, or a word written to CMD and the state to run it in. -/
inductive Fetched where
  | quiet (s : State)
  | command (w : Word) (s : State)
  deriving DecidableEq, Repr

/-- The value of a 32-bit register read at an offset, where a register stands there (R22 to R27, R56). -/
def registerAt (off : Nat) (s : State) : Option Word :=
  match off with
  | 0x000 => some 0
  | 0x004 => some (lenWord s)
  | 0x008 => some (statusWord s)
  | 0x00C => some (rxWord s)
  | _ => none

/-- The DATA index at a byte offset, where a cell stands there (R51, R56). -/
def dataIndex (off : Nat) (s : State) : Option Nat :=
  if 0x100 ≤ off ∧ off < 0x100 + s.params.bufBytes then some (off - 0x100) else none

/-- A refused access (R55): F_ACCESS is recorded, nothing else. -/
def refuseAccess (s : State) : State := { recordFault .access s with answer := .refused }

/-- A 32-bit write (R22 to R24, R27, R56). -/
def writeRegister (off : Nat) (v : Word) (s : State) : Fetched :=
  match off with
  | 0x000 => .command v { s with answer := .written }
  | 0x004 => .quiet (writeLen v { s with answer := .written })
  | 0x008 => .quiet { s with answer := .written }
  | 0x00C => .quiet { s with answer := .written }
  | _ => .quiet (refuseAccess s)

/-- A 32-bit read (R56): no side effect (R58). -/
def readRegister (off : Nat) (s : State) : State :=
  match registerAt off s with
  | some v => { s with answer := .word v }
  | none => refuseAccess s

/-- A byte read (R51): a cell that holds no value records F_UNWRITTEN and gives none. -/
def readDataByte (off : Nat) (s : State) : State :=
  match dataIndex off s with
  | none => refuseAccess s
  | some j =>
    match memRead j s with
    | some b => { s with answer := .byte b }
    | none => { recordFault .unwritten s with answer := .noValue }

/-- A byte write (R51). -/
def writeDataByte (off : Nat) (v : Byte) (s : State) : State :=
  match dataIndex off s with
  | none => refuseAccess s
  | some j => { memWrite j v s with answer := .written }

/-- A host access made while no command runs (R55, R56). -/
def hostAccess (a : Access) (s : State) : Fetched :=
  match a with
  | .read8 off => .quiet (readDataByte off s)
  | .read16 _ => .quiet (refuseAccess s)
  | .read32 off => .quiet (readRegister off s)
  | .write8 off v => .quiet (writeDataByte off v s)
  | .write16 _ _ => .quiet (refuseAccess s)
  | .write32 off v => writeRegister off v s

/-- An access by any agent while a command runs: F_CONCURRENT is recorded, no other effect (R62). -/
def overlapAccess (s : State) : State := recordFault .concurrent s

/-- Take the next entry of `host`. With no entry nothing happens: the block has no background activity (R60). -/
def fetch (s : State) : Fetched :=
  match s.host with
  | [] => .quiet s
  | .reset :: rest => .quiet (applyReset { s with host := rest })
  | .overlap _ :: rest => .quiet (overlapAccess { s with host := rest })
  | .access a :: rest => hostAccess a { s with host := rest }

/-- A state whose next entry is a write of `w` to CMD. -/
def placeCommand (s : State) (w : Word) : State := { s with host := .access (.write32 0x000 w) :: s.host }

end Sys2Proof.Machine
end

