-- ==== Sys2Proof/Machine/Step.lean ====
section
/-! DEFINITION. One step: the next entry of `host`, and where it is a write to CMD the command it issues, to its completion
(R60, R71). -/

namespace Sys2Proof.Machine

/-- One step. A word that decodes to no command is the illegal issue of R78; any other word is its command (R71, R203). -/
def step (s : State) : Host.Outcome State Fault Refusal :=
  match fetch s with
  | .quiet t => .next t
  | .command w t =>
    match decode w with
    | .ok i => exec i t
    | .error _ => .next (illegalIssue t)

/-- `s` with the instruction of `nbits` bits and value `w` as the host's next write to CMD, so that the next step runs it. -/
def State.withFetchWord (s : State) (nbits w : Nat) : State :=
  placeCommand s (BitVec.ofNat 32 (w % 2 ^ nbits))

end Sys2Proof.Machine
end

