-- ==== Sys2Proof/Machine/HostProgram.lean ====
section
/-! DEFINITION. What a line of a host program does on the bus: a command line writes its word to CMD (R81, R82), a host statement
is one access or more (R82), a pseudo-instruction is its expansion (R83). -/

namespace Sys2Proof.Machine

/-- The write of a command line's word to CMD (R82); none where the assembler refuses the line (R81). -/
def commandEvents (l : AsmLine) : Option (List HostEvent) :=
  (assemble l).map (fun w => [.access (.write32 0x000 w)])

/-- `len N` (R82). -/
def lenEvent (n : Nat) : HostEvent := .access (.write32 0x004 (BitVec.ofNat 32 n))

/-- `data J, B` (R82). -/
def dataEvent (j b : Nat) : HostEvent := .access (.write8 (0x100 + j) (BitVec.ofNat 8 b))

/-- `data J, [B0, B1, ...]` (R82). -/
def dataEvents (j : Nat) : List Nat → List HostEvent
  | [] => []
  | b :: bs => dataEvent j b :: dataEvents (j + 1) bs

/-- The accesses of a host line, none where an operand does not fit (R81 to R83). -/
def hostLineEvents (l : HostLine) : Option (List HostEvent) :=
  if l.fits then
    match l with
    | .command c => commandEvents c
    | .len n => some [lenEvent n]
    | .data j b => some [dataEvent j b]
    | .dataList j bs => some (dataEvents j bs)
    | .rdStatus => some [.access (.read32 0x008)]
    | .rdRx => some [.access (.read32 0x00C)]
    | .rdData j => some [.access (.read8 (0x100 + j))]
    | .probe a => (commandEvents (.writeCommand a)).map (fun es => lenEvent 0 :: es)
    | .sendc b => (commandEvents (.sendByte b)).bind (fun es => (commandEvents .waitAck).map (fun fs => es ++ fs))
    | .wreg8 a r b => (commandEvents (.write a r)).map (fun es => dataEvent 0 b :: lenEvent 1 :: es)
    | .rreg8 a r => (commandEvents (.read a r)).map (fun es => lenEvent 1 :: es)
  else none

end Sys2Proof.Machine
end

