-- ==== Sys2Proof/Machine/Wire.lean ====
section
/-! DEFINITION. Views derived from the line state and the trace: the wire levels and the START and STOP conditions (R101), the
levels a peer samples (R112), the transcript (R102) and the sum of the WAIT durations (R250). -/

namespace Sys2Proof.Machine

/-- SCL_BUS = SCL_OUT while LC = READY (R101). -/
def sclBus (s : State) : Option Level :=
  match s.lc with
  | .ready => s.lines.sclOut
  | .unconfigured => none

/-- SDA_BUS = SDA_OUT while SDA is an output; otherwise the model knows it only at a SAMPLE (R101). -/
def sdaBus (s : State) : Option Level :=
  match s.lc, s.lines.sdaDir with
  | .ready, some .output => s.lines.sdaOut
  | _, _ => none

/-- A condition the master makes on the wire (R101). -/
inductive Condition where
  | start
  | stop
  deriving DecidableEq, Repr

/-- The condition an event makes from the line state before it (R101): SDA moves while it is an output and SCL_OUT = 1. -/
def conditionOf (l : Lines) (e : Event) : Option Condition :=
  match e with
  | .sda false => if l = ⟨some true, some .output, some true⟩ then some .start else none
  | .sda true => if l = ⟨some true, some .output, some false⟩ then some .stop else none
  | _ => none

/-- The conditions a list of events makes, in order, from a line state. -/
def conditions (l : Lines) : List Event → List Condition
  | [] => []
  | e :: es => (conditionOf l e).toList ++ conditions (linesAfter e l) es

/-- The level of SDA_OUT at each SCL(1), in order: what a peer that samples there is sent (R112). -/
def clockedLevels (l : Lines) : List Event → List (Option Level)
  | [] => []
  | e :: es => (if e = .scl true then [l.sdaOut] else []) ++ clockedLevels (linesAfter e l) es

/-- Whether every SAMPLE of a list of events is taken while SDA is an input (R118). -/
def samplesAreInputs (l : Lines) : List Event → Bool
  | [] => true
  | .sample b :: es => l.sdaDir == some .input && samplesAreInputs (linesAfter (.sample b) l) es
  | e :: es => samplesAreInputs (linesAfter e l) es

/-- The sum of the WAIT durations of a list of events (R250). -/
def waitSum : List Event → Nat
  | [] => 0
  | .wait t :: es => t + waitSum es
  | _ :: es => waitSum es

/-- The byte of bits received most-significant first (R53, R114). -/
def byteOfBits (bs : List Level) : Byte := bs.foldl shiftIn 0

/-- A token of the transcript (R102). -/
inductive Token where
  /-- `S`. -/
  | s
  /-- `Sr`, a repeated START. -/
  | sr
  /-- `P`. -/
  | p
  /-- `W(b)`. -/
  | w (b : Byte)
  /-- `a`: the peer acknowledged. -/
  | a
  /-- `n`: the peer did not. -/
  | n
  /-- `R(b)`. -/
  | r (b : Byte)
  /-- `A`: the master acknowledged. -/
  | mA
  /-- `N`: the master did not. -/
  | mN
  deriving DecidableEq, Repr

/-- The bits of `n` SEND_BYTE bit cells and the events after them. -/
def sentBits : Nat → List Event → Option (List Level × List Event)
  | 0, es => some ([], es)
  | n + 1, .sda b :: .wait _ :: .scl true :: .wait _ :: .scl false :: .wait _ :: es =>
    (sentBits n es).map (fun x => (b :: x.1, x.2))
  | _ + 1, _ => none

/-- The samples of `n` READ_BYTE bit cells and the events after them. -/
def receivedBits : Nat → List Event → Option (List Level × List Event)
  | 0, es => some ([], es)
  | n + 1, .scl false :: .wait _ :: .scl true :: .sample b :: .wait _ :: es =>
    (receivedBits n es).map (fun x => (b :: x.1, x.2))
  | _ + 1, _ => none

/-- The outcome of a WAIT_ACK's polls and the events after them. -/
def polled : List Event → Option (AckOutcome × List Event)
  | .sample false :: .scl false :: es => some (.ack, es)
  | .sample true :: .wait _ :: es => polled es
  | .sample true :: es => some (.nack, es)
  | _ => none

/-- The transcript of a trace, by fuel; `opened` says whether a START has run since the last STOP or INIT (R102). -/
def transcriptFrom : Nat → Bool → List Event → List Token
  | 0, _, _ => []
  | _ + 1, _, [] => []
  | fuel + 1, opened, e :: es =>
    match e, es with
    | .dir .output, .sda true :: .scl true :: .wait _ :: .sda false :: .wait _ :: .scl false :: rest =>
      (if opened then .sr else .s) :: transcriptFrom fuel true rest
    | .dir .output, .sda false :: .wait _ :: .scl true :: .wait _ :: .sda true :: rest =>
      .p :: transcriptFrom fuel false rest
    | .dir .output, rest =>
      match sentBits 8 rest with
      | some (bs, rest') => .w (byteOfBits bs) :: transcriptFrom fuel opened rest'
      | none => transcriptFrom fuel opened rest
    | .dir .input, .sda true :: .wait _ :: .scl true :: rest =>
      match polled rest with
      | some (.ack, rest') => .a :: transcriptFrom fuel opened rest'
      | some (.nack, rest') => .n :: transcriptFrom fuel opened rest'
      | none => transcriptFrom fuel opened rest
    | .dir .input, rest =>
      match receivedBits 8 rest with
      | some (bs, .scl false :: .wait _ :: .dir .output :: .sda b :: .wait _ :: .scl true :: .wait _ :: .scl false ::
          .wait _ :: rest') =>
        .r (byteOfBits bs) :: (if b then .mN else .mA) :: transcriptFrom fuel opened rest'
      | _ => transcriptFrom fuel opened rest
    | .configure _, rest => transcriptFrom fuel false rest
    | .sda _, rest => transcriptFrom fuel opened rest
    | .scl _, rest => transcriptFrom fuel opened rest
    | .wait _, rest => transcriptFrom fuel opened rest
    | .sample _, rest => transcriptFrom fuel opened rest
    | .release _, rest => transcriptFrom fuel opened rest

/-- The transcript of a trace (R102): one token per primitive invocation, in order. -/
def transcript (es : List Event) : List Token := transcriptFrom es.length false es

end Sys2Proof.Machine
end

