-- ==== Sys2Proof/Safety.lean ====
section
/-! DEFINITION. What counts as a safe state (FAULTS is empty, R33), and the invariants statements use. -/

namespace Sys2Proof.Machine

/-- "Every claim about the block takes 'FAULTS is empty' as a premise" (R33). -/
abbrev State.safe (s : State) : Prop := s.faults = FaultSet.empty

/-- The line states R117's table leaves a READY block in: idle, SCL low with SDA an output, or SCL low with SDA a released
input. -/
abbrev Lines.settled (l : Lines) : Prop :=
  l = Lines.idle ∨ l = ⟨some false, some .output, some false⟩ ∨ l = ⟨some false, some .output, some true⟩ ∨
    l = ⟨some false, some .input, some true⟩

/-- DATA is in canonical form and holds no cell outside the buffer (R28). -/
abbrev State.dataInv (s : State) : Prop :=
  Memory.wf s.data = true ∧ ∀ c ∈ s.data, c.1 < s.params.bufBytes

/-- The lines hold R117's values while LC = READY and none while LC = UNCONFIGURED (R29, R117, R183). -/
abbrev State.linesInv (s : State) : Prop :=
  match s.lc with
  | .ready => s.lines.settled
  | .unconfigured => s.lines = Lines.unspecified

/-- The invariant of a state between steps: parameters in range, DATA canonical and inside the buffer, lines as LC says, and the
line state is what the trace since reset leaves (R6, R28, R29, R32, R117). -/
abbrev State.Inv (s : State) : Prop :=
  s.params.wf ∧ s.dataInv ∧ s.linesInv ∧ s.lines = linesAfterAll s.trace Lines.unspecified

end Sys2Proof.Machine
end

