-- ==== Sys2Proof/Certificates/Slice0/Obligations.lean ====
section
/-! DEFINITION. The statements for the provers, with the few words they are written in. -/

namespace Sys2Proof.Spec

open Sys2Proof Sys2Proof.Machine

/-- The next entry of `host` is the write of `w` to CMD (R22). -/
abbrev issued (s : State) (w : Word) (rest : List HostEvent) : Prop := s.host = .access (.write32 0x000 w) :: rest

/-- The state a command issued from `s` runs in: the write is taken off the list and answered. -/
abbrev taken (s : State) (rest : List HostEvent) : State := { s with host := rest, answer := .written }

/-- The command passes issue checks 2 and 3 of R203. -/
abbrev passesChecks (i : Instr) (s : State) : Prop :=
  (i = .init ∨ s.lc = .ready) ∧ (i.isProtocol = true → s.len.toNat ≤ s.params.bufBytes)

/-- The next answers of `SAMPLE()` are `st`, in order. -/
abbrev answersAre (s : State) (st : List Level) : Prop := (List.range st.length).map (peerLevel s) = st

/-- The answers that acknowledge at sample k + 1: k high samples, then a low one (R113). -/
abbrev ackAnswers (k : Nat) : List Level := List.replicate k true ++ [false]

/-- k polls that see SDA high and wait (R113). -/
abbrev highPolls (p : Params) (k : Nat) : List Event := (List.replicate k [Event.sample true, .wait p.tPoll]).flatten

/-- The events of a WAIT_ACK that returns ACK at sample k + 1 (R113). -/
abbrev ackedEvents (p : Params) (k : Nat) : List Event :=
  [.dir .input, .sda true, .wait p.tWackSettle, .scl true] ++ highPolls p k ++ [.sample false, .scl false]

/-- The events of a WAIT_ACK that returns NACK, its STOP included (R113). -/
abbrev nackedEvents (p : Params) : List Event :=
  [.dir .input, .sda true, .wait p.tWackSettle, .scl true] ++ highPolls p (p.ackPollMax - 1) ++ [.sample true] ++
    stopEvents p

/-- The events of a SEND_CHECKED of `b` acknowledged at sample k + 1 (R142). -/
abbrev sentEvents (p : Params) (b : Byte) (k : Nat) : List Event := sendByteEvents p b ++ ackedEvents p k

/-- The events of a READ_BYTE of `b` that the master acknowledges or not (R114 to R116). -/
abbrev readByteEvents (p : Params) (b : Byte) (ackf : Bool) : List Event :=
  .dir .input :: (bitsMsbFirst b).flatMap (fun v => [.scl false, .wait p.tBit, .scl true, .sample v, .wait p.tBit]) ++
    [.scl false, .wait p.tAck, .dir .output, .sda (!ackf), .wait p.tAck, .scl true, .wait p.tAck, .scl false, .wait p.tAck]

/-- The events of a read data phase: every byte acknowledged but the last (R145). -/
def receivedEvents (p : Params) : List Byte → List Event
  | [] => []
  | b :: bs => readByteEvents p b (!bs.isEmpty) ++ receivedEvents p bs

/-- The address and register bytes a write command sends before its data (R140, R141, R150 to R152). -/
def writeHeader : Instr → Option (List Byte)
  | .init => none
  | .deinit => none
  | .start => none
  | .stop => none
  | .sendByte _ => none
  | .waitAck => none
  | .readByte _ => none
  | .writeCommand a => some [a]
  | .write a r => some [a, r]
  | .writeAddress16 a r => some [a, r.extractLsb' 8 8, r.extractLsb' 0 8]
  | .read _ _ => none
  | .readAddress16 _ _ => none
  | .readCommand _ => none

/-- The bytes a read command sends before its repeated START, none where it has no register phase, and the read-form address
(R140, R141, R153 to R155). -/
def readHeader : Instr → Option (List Byte × Byte)
  | .init => none
  | .deinit => none
  | .start => none
  | .stop => none
  | .sendByte _ => none
  | .waitAck => none
  | .readByte _ => none
  | .writeCommand _ => none
  | .write _ _ => none
  | .writeAddress16 _ _ => none
  | .read a r => some ([a, r], a + 1)
  | .readAddress16 a r => some ([a, r.extractLsb' 8 8, r.extractLsb' 0 8], a + 1)
  | .readCommand a => some ([], a + 1)

/-- The events of a read command up to its (last) START (R145). -/
abbrev readOpeningEvents (p : Params) (hdr : List Byte) (acks : List Nat) : List Event :=
  startEvents p ++ (if hdr = [] then [] else (List.zipWith (sentEvents p) hdr acks).flatten ++ startEvents p)

/-- The acknowledge checks of a successful command (R163); WAIT_ACK as a command is not counted here. -/
def checksOf (i : Instr) (n : Nat) : Nat :=
  match i with
  | .init => 0
  | .deinit => 0
  | .start => 0
  | .stop => 0
  | .sendByte _ => 0
  | .waitAck => 0
  | .readByte _ => 0
  | .writeCommand _ => 1 + n
  | .write _ _ => 2 + n
  | .writeAddress16 _ _ => 3 + n
  | .read _ _ => 3
  | .readAddress16 _ _ => 4
  | .readCommand _ => 1

/-- The delay budget of R250, every check acknowledged at sample 1; WAIT_ACK's two rows are stated apart. -/
def budget (i : Instr) (p : Params) (n : Nat) : Nat :=
  match i with
  | .init => 0
  | .deinit => 0
  | .start => 2 * p.tSettle
  | .stop => 2 * p.tSettle
  | .sendByte _ => 24 * p.tBit
  | .waitAck => p.tWackSettle
  | .readByte _ => 16 * p.tBit + 4 * p.tAck
  | .writeCommand _ => 4 * p.tSettle + (1 + n) * (24 * p.tBit + p.tWackSettle)
  | .write _ _ => 4 * p.tSettle + (2 + n) * (24 * p.tBit + p.tWackSettle)
  | .writeAddress16 _ _ => 4 * p.tSettle + (3 + n) * (24 * p.tBit + p.tWackSettle)
  | .read _ _ => 6 * p.tSettle + 3 * (24 * p.tBit + p.tWackSettle) + n * (16 * p.tBit + 4 * p.tAck)
  | .readAddress16 _ _ => 6 * p.tSettle + 4 * (24 * p.tBit + p.tWackSettle) + n * (16 * p.tBit + 4 * p.tAck)
  | .readCommand _ => 4 * p.tSettle + 1 * (24 * p.tBit + p.tWackSettle) + n * (16 * p.tBit + 4 * p.tAck)

/-- An access R56's map permits: a 32-bit access to one of the four registers, or a byte access to a DATA cell. -/
def permitted (bufBytes : Nat) : Access → Bool
  | .read8 off => decide (0x100 ≤ off ∧ off < 0x100 + bufBytes)
  | .read16 _ => false
  | .read32 off => off == 0x000 || off == 0x004 || off == 0x008 || off == 0x00C
  | .write8 off _ => decide (0x100 ≤ off ∧ off < 0x100 + bufBytes)
  | .write16 _ _ => false
  | .write32 off _ => off == 0x000 || off == 0x004 || off == 0x008 || off == 0x00C

/-- The result codes a command that passed the issue checks may report (R204). -/
def mayReport : Instr → Result → Bool
  | .init, r => r == .ok || r == .configFail
  | .deinit, r => r == .ok || r == .configFail
  | .start, r => r == .ok
  | .stop, r => r == .ok
  | .sendByte _, r => r == .ok
  | .readByte _, r => r == .ok
  | .waitAck, r => r == .ok || r == .nack
  | .writeCommand _, r => r == .ok || r == .nack
  | .write _ _, r => r == .ok || r == .nack
  | .writeAddress16 _ _, r => r == .ok || r == .nack
  | .read _ _, r => r == .ok || r == .nack
  | .readAddress16 _ _, r => r == .ok || r == .nack
  | .readCommand _, r => r == .ok || r == .nack

/-- R72's table: for an opcode of a command, some field that must be 0 is not. -/
abbrev mustBeZeroBroken (op : BitVec 4) (a : BitVec 1) (z : BitVec 3) (b : Byte) (g : Half) : Prop :=
  ((op = 0x1 ∨ op = 0x2 ∨ op = 0x3 ∨ op = 0x4 ∨ op = 0x6) ∧ (a ≠ 0 ∨ z ≠ 0 ∨ b ≠ 0 ∨ g ≠ 0)) ∨
  ((op = 0x5 ∨ op = 0x8 ∨ op = 0xD) ∧ (a ≠ 0 ∨ z ≠ 0 ∨ g ≠ 0)) ∨
  (op = 0x7 ∧ (z ≠ 0 ∨ b ≠ 0 ∨ g ≠ 0)) ∨
  ((op = 0x9 ∨ op = 0xB) ∧ (a ≠ 0 ∨ z ≠ 0 ∨ g.extractLsb' 8 8 ≠ 0)) ∨
  ((op = 0xA ∨ op = 0xC) ∧ (a ≠ 0 ∨ z ≠ 0))

/-- R81: every literal of a line fits its field. -/
def lineInRange : AsmLine → Prop
  | .init => True
  | .deinit => True
  | .start => True
  | .stop => True
  | .sendByte b => b < 2 ^ 8
  | .waitAck => True
  | .readByte _ => True
  | .writeCommand a => a < 2 ^ 8
  | .write a r => a < 2 ^ 8 ∧ r < 2 ^ 8
  | .writeAddress16 a r => a < 2 ^ 8 ∧ r < 2 ^ 16
  | .read a r => a < 2 ^ 8 ∧ r < 2 ^ 8
  | .readAddress16 a r => a < 2 ^ 8 ∧ r < 2 ^ 16
  | .readCommand a => a < 2 ^ 8

/-- OP of a line (R74). -/
def lineOp : AsmLine → Nat
  | .init => 0x1
  | .deinit => 0x2
  | .start => 0x3
  | .stop => 0x4
  | .sendByte _ => 0x5
  | .waitAck => 0x6
  | .readByte _ => 0x7
  | .writeCommand _ => 0x8
  | .write _ _ => 0x9
  | .writeAddress16 _ _ => 0xA
  | .read _ _ => 0xB
  | .readAddress16 _ _ => 0xC
  | .readCommand _ => 0xD

/-- The literal a line puts in A (R72, R81): 1 for `read_byte ack`. -/
def lineA : AsmLine → Nat
  | .init => 0
  | .deinit => 0
  | .start => 0
  | .stop => 0
  | .sendByte _ => 0
  | .waitAck => 0
  | .readByte ack => if ack then 1 else 0
  | .writeCommand _ => 0
  | .write _ _ => 0
  | .writeAddress16 _ _ => 0
  | .read _ _ => 0
  | .readAddress16 _ _ => 0
  | .readCommand _ => 0

/-- The literal a line puts in B (R72): BYTE or ADDR8. -/
def lineB : AsmLine → Nat
  | .init => 0
  | .deinit => 0
  | .start => 0
  | .stop => 0
  | .sendByte b => b
  | .waitAck => 0
  | .readByte _ => 0
  | .writeCommand a => a
  | .write a _ => a
  | .writeAddress16 a _ => a
  | .read a _ => a
  | .readAddress16 a _ => a
  | .readCommand a => a

/-- The literal a line puts in G (R72): REG8 or REG16. -/
def lineG : AsmLine → Nat
  | .init => 0
  | .deinit => 0
  | .start => 0
  | .stop => 0
  | .sendByte _ => 0
  | .waitAck => 0
  | .readByte _ => 0
  | .writeCommand _ => 0
  | .write _ r => r
  | .writeAddress16 _ r => r
  | .read _ r => r
  | .readAddress16 _ r => r
  | .readCommand _ => 0

end Sys2Proof.Spec

open Sys2Proof Sys2Proof.Machine Sys2Proof.Spec

/-! ### Encoding -/

/-- R70, R72: the decoder reads back every command from its word, every operand at every value. -/
def Obligations.DecodeEncodeRoundTrip : Prop :=
  ∀ i : Instr, i.wellFormed = true → decode (encode i) = .ok i

/-- R79: a word that is a command is the word of that command only. -/
def Obligations.EveryLegalWordIsItsCommandsWord : Prop :=
  ∀ (w : Word) (i : Instr), decode w = .ok i → encode i = w

/-- R75, whole: a word decodes to a mnemonic exactly when it lies in the mnemonic's row, at most one row matches, and a word in no
row is illegal. -/
def Obligations.DecodeIsTheMaskMatchTable : Prop :=
  (∀ (w : Word) (m : Mnemonic), (∃ i, decode w = .ok i ∧ i.mnemonic = m) ↔ w &&& m.maskBits = m.matchBits) ∧
  (∀ (w : Word) (m m' : Mnemonic), w &&& m.maskBits = m.matchBits → w &&& m'.maskBits = m'.matchBits → m = m') ∧
  (∀ w : Word, (∃ e, decode w = .error e) ↔ ∀ m : Mnemonic, w &&& m.maskBits ≠ m.matchBits)

/-- R78, items 1 and 2, with all of R72: exactly which words are illegal, each by its reason. -/
def Obligations.IllegalWordsAreNamed : Prop :=
  ∀ w : Word,
    (decode w = .error .opcode ↔
      w.extractLsb' 0 4 = 0x0 ∨ w.extractLsb' 0 4 = 0xE ∨ w.extractLsb' 0 4 = 0xF) ∧
    (decode w = .error .mustBeZero ↔ mustBeZeroBroken (w.extractLsb' 0 4) (w.extractLsb' 4 1) (w.extractLsb' 5 3)
      (w.extractLsb' 8 8) (w.extractLsb' 16 16))

/-- R73, whole: every operand is taken straight from its bits. -/
def Obligations.OperandsAreTheirBits : Prop :=
  (∀ (w : Word) (b : Byte), decode w = .ok (.sendByte b) → b = w.extractLsb' 8 8) ∧
  (∀ (w : Word) (f : Bool), decode w = .ok (.readByte f) → f = w.getLsbD 4) ∧
  (∀ (w : Word) (a : Byte), decode w = .ok (.writeCommand a) ∨ decode w = .ok (.readCommand a) → a = w.extractLsb' 8 8) ∧
  (∀ (w : Word) (a r : Byte), decode w = .ok (.write a r) ∨ decode w = .ok (.read a r) →
    a = w.extractLsb' 8 8 ∧ r = w.extractLsb' 16 8) ∧
  (∀ (w : Word) (a : Byte) (r : Half), decode w = .ok (.writeAddress16 a r) ∨ decode w = .ok (.readAddress16 a r) →
    a = w.extractLsb' 8 8 ∧ r = w.extractLsb' 16 16 ∧ r.extractLsb' 8 8 = w.extractLsb' 24 8 ∧
      r.extractLsb' 0 8 = w.extractLsb' 16 8) ∧
  (∀ s : State, latchedLength s = ((lenWord s).extractLsb' 0 16).toNat)

/-- R81: the assembler gives a word exactly when every literal is below 2^8 (REG16: 2^16); the word is
G << 16 | B << 8 | A << 4 | OP of the line's own literals, its fields have them as values, and it decodes to the line's command. -/
def Obligations.AssemblerEmitsTheCommandWord : Prop :=
  ∀ l : AsmLine,
    (lineInRange l ↔ ∃ w, assemble l = some w) ∧
    ∀ w, assemble l = some w →
      w.toNat = lineG l <<< 16 ||| lineB l <<< 8 ||| lineA l <<< 4 ||| lineOp l ∧
      (w.extractLsb' 0 4).toNat = lineOp l ∧ (w.extractLsb' 4 1).toNat = lineA l ∧ w.extractLsb' 5 3 = 0 ∧
      (w.extractLsb' 8 8).toNat = lineB l ∧ (w.extractLsb' 16 16).toNat = lineG l ∧ decode w = .ok l.command

/-- R81, R74: words written out from the spec's encoding decode to the commands they stand for. -/
def Obligations.WordsDecodeAsWritten : Prop :=
  decode 0x00000001 = .ok .init ∧ decode 0x00000002 = .ok .deinit ∧ decode 0x0000A505 = .ok (.sendByte 0xA5) ∧
  decode 0x00000017 = .ok (.readByte true) ∧ decode 0x00105009 = .ok (.write 0x50 0x10) ∧
  decode 0x1234500A = .ok (.writeAddress16 0x50 0x1234) ∧ decode 0x0010500B = .ok (.read 0x50 0x10) ∧
  decode 0x0000500D = .ok (.readCommand 0x50) ∧ decode 0x00000000 = .error .opcode ∧
  decode 0x00000101 = .error .mustBeZero

/-! ### Steps and issue checks -/

/-- R71: when the host's next access writes a word to CMD and the word decodes to a command, the step is that command, run in the
state in which the write is taken off `host` and answered. -/
def Obligations.StepRunsTheIssuedCommand : Prop :=
  ∀ (s : State) (w : Word) (rest : List HostEvent) (i : Instr),
    issued s w rest → decode w = .ok i → step s = exec i (taken s rest)

/-- R60: with no access to come nothing happens, there is no background activity. -/
def Obligations.NothingHappensWithoutAnAccess : Prop :=
  ∀ s : State, s.host = [] → step s = .next s

/-- R203, whole: the issue checks, in order; one that ends the command changes nothing but RESULT and FAULTS. -/
def Obligations.IssueChecksRunInOrder : Prop :=
  ∀ (s : State) (w : Word) (rest : List HostEvent), issued s w rest →
    (∀ e, decode w = .error e →
      step s = .next { taken s rest with result := .illegal, faults := s.faults.add .illegal }) ∧
    (∀ i, decode w = .ok i → i ≠ .init → s.lc = .unconfigured →
      step s = .next { taken s rest with result := .notReady, faults := s.faults.add .notReady }) ∧
    (∀ i, decode w = .ok i → i.isProtocol = true → s.lc = .ready → s.params.bufBytes < s.len.toNat →
      step s = .next { taken s rest with result := .illegal, faults := s.faults.add .illegal }) ∧
    (∀ i, decode w = .ok i → passesChecks i s → step s = exec i (taken s rest))

/-- R204: a command that passed the issue checks reports one code of its own, and FAULTS is as before. -/
def Obligations.PassedCommandsReportTheirCodes : Prop :=
  ∀ (i : Instr) (s t : State), passesChecks i s → exec i s = .next t →
    mayReport i t.result = true ∧ t.faults = s.faults

/-! ### The host's registers and DATA -/

/-- R22 to R27, R56: what a 32-bit read of each register answers; it changes nothing else (R58). -/
def Obligations.RegisterReadsAnswerTheirFields : Prop :=
  ∀ (s : State) (rest : List HostEvent),
    (s.host = .access (.read32 0x000) :: rest → step s = .next { s with host := rest, answer := .word 0 }) ∧
    (s.host = .access (.read32 0x004) :: rest →
      step s = .next { s with host := rest, answer := .word (s.len.setWidth 32) }) ∧
    (s.host = .access (.read32 0x008) :: rest → ∃ v : Word,
      step s = .next { s with host := rest, answer := .word v } ∧
      v.extractLsb' 0 3 = (match s.result with
        | .none => 0 | .ok => 1 | .nack => 2 | .configFail => 3 | .illegal => 4 | .notReady => 5) ∧
      (v.getLsbD 4 = true ↔ s.lc = .ready) ∧ v.getLsbD 3 = false ∧ v.extractLsb' 5 27 = 0) ∧
    (s.host = .access (.read32 0x00C) :: rest →
      step s = .next { s with host := rest, answer := .word (s.rx.setWidth 32) })

/-- R23, R24, R27, R56: a 32-bit write to LEN sets LEN[15:0], to STATUS or RXDATA is ignored. -/
def Obligations.RegisterWritesSetLenOnly : Prop :=
  ∀ (s : State) (rest : List HostEvent) (v : Word),
    (s.host = .access (.write32 0x004 v) :: rest → step s = .next { taken s rest with len := v.extractLsb' 0 16 }) ∧
    (s.host = .access (.write32 0x008 v) :: rest → step s = .next (taken s rest)) ∧
    (s.host = .access (.write32 0x00C v) :: rest → step s = .next (taken s rest))

/-- R55: every access outside R56's map is refused: F_ACCESS is recorded, nothing else of the block changes. -/
def Obligations.RefusedAccessesRecordOnly : Prop :=
  ∀ (s : State) (a : Access) (rest : List HostEvent), s.host = .access a :: rest → permitted s.params.bufBytes a = false →
    step s = .next { s with host := rest, answer := .refused, faults := s.faults.add .access }

/-- R51, whole: host byte accesses to a DATA cell. -/
def Obligations.HostDataAccesses : Prop :=
  ∀ (s : State) (rest : List HostEvent) (j : Nat), j < s.params.bufBytes →
    (∀ v, s.host = .access (.write8 (0x100 + j) v) :: rest →
      ∃ d, step s = .next { taken s rest with data := d } ∧ cellAt d j = some v ∧
        ∀ k, k ≠ j → cellAt d k = cellAt s.data k) ∧
    (∀ b, s.host = .access (.read8 (0x100 + j)) :: rest → memRead j s = some b →
      step s = .next { s with host := rest, answer := .byte b }) ∧
    (s.host = .access (.read8 (0x100 + j)) :: rest → memRead j s = none →
      step s = .next { s with host := rest, answer := .noValue, faults := s.faults.add .unwritten })

/-- R62: an access while a command runs records F_CONCURRENT and has no other effect. -/
def Obligations.OverlappingAccessesRecordOnly : Prop :=
  ∀ (s : State) (a : Access) (rest : List HostEvent), s.host = .overlap a :: rest →
    step s = .next { s with host := rest, faults := s.faults.add .concurrent }

/-- R36: the reset event's values, from every state, and the power-on state's. FAULTS is unchanged by the event. -/
def Obligations.ResetGivesTheResetValues : Prop :=
  (∀ (s : State) (rest : List HostEvent), s.host = .reset :: rest →
    step s = .next { s with
      host := rest, lc := .unconfigured, lines := ⟨none, none, none⟩, len := 0, result := .none, rx := 0, data := [],
      trace := [] }) ∧
  State.reset.lc = .unconfigured ∧ State.reset.lines = ⟨none, none, none⟩ ∧ lenWord State.reset = 0 ∧
  statusWord State.reset = 0 ∧ rxWord State.reset = 0 ∧ (∀ j, memRead j State.reset = none) ∧
  State.reset.trace = [] ∧ State.reset.faults = ⟨false, false, false, false, false⟩

/-! ### Primitives -/

/-- R110: START, its word, its events and end state, and the wire from the line states R117 allows: one START condition and no
other, never entered with SCL_OUT = 1 and SDA_OUT = 0. -/
def Obligations.StartMakesItsSequence : Prop :=
  decode 0x00000003 = .ok .start ∧
  ∀ s : State, s.lc = .ready →
    ∃ es, exec .start s = .next { s with
        result := .ok
        lines := ⟨some false, some .output, some false⟩
        trace := s.trace ++ es } ∧
      es = [.dir .output, .sda true, .scl true, .wait s.params.tSettle, .sda false, .wait s.params.tSettle, .scl false] ∧
      (s.lines.settled → conditions s.lines es = [.start] ∧ ¬(s.lines.sclOut = some true ∧ s.lines.sdaOut = some false))

/-- R111: STOP, its word, its events and end state, and the wire from the line states R117 allows: one STOP condition, and from the
idle bus a START condition just before it. -/
def Obligations.StopMakesItsSequence : Prop :=
  decode 0x00000004 = .ok .stop ∧
  ∀ s : State, s.lc = .ready →
    ∃ es, exec .stop s = .next { s with
        result := .ok
        lines := ⟨some true, some .output, some true⟩
        trace := s.trace ++ es } ∧
      es = [.dir .output, .sda false, .wait s.params.tSettle, .scl true, .wait s.params.tSettle, .sda true] ∧
      (s.lines.settled → conditions s.lines es = if s.lines = Lines.idle then [.start, .stop] else [.stop])

/-- R112: SEND_BYTE, its words, its operand, its events and end state. The levels SDA holds at the eight SCL(1) events are the
byte's bits, bit 7 first; with SCL low at entry no condition shows on the wire; from the idle bus a byte with bit 7 = 0 makes one
START condition, a byte with bit 7 = 1 none. -/
def Obligations.SendByteShiftsOutMsbFirst : Prop :=
  (∀ w : Word, (∃ b, decode w = .ok (.sendByte b)) ↔ w &&& 0xFFFF00FF = 0x00000005) ∧
  (∀ (w : Word) (b : Byte), decode w = .ok (.sendByte b) → b = w.extractLsb' 8 8) ∧
  ∀ (s : State) (b : Byte), s.lc = .ready →
    ∃ es, exec (.sendByte b) s = .next { s with
        result := .ok
        lines := ⟨some false, some .output, some (b.getLsbD 0)⟩
        trace := s.trace ++ es } ∧
      es = .dir .output :: [7, 6, 5, 4, 3, 2, 1, 0].flatMap (fun k =>
        [.sda (b.getLsbD k), .wait s.params.tBit, .scl true, .wait s.params.tBit, .scl false, .wait s.params.tBit]) ∧
      clockedLevels s.lines es = [7, 6, 5, 4, 3, 2, 1, 0].map (fun k => some (b.getLsbD k)) ∧
      (s.lines.sclOut = some false → conditions s.lines es = []) ∧
      (s.lines = Lines.idle → b.getLsbD 7 = false → conditions s.lines es = [.start]) ∧
      (s.lines = Lines.idle → b.getLsbD 7 = true → conditions s.lines es = [])

/-- R113: WAIT_ACK, its word, its events and end states. It takes the samples up to the first low one, at most ACK_POLL_MAX, and on
none low runs STOP. -/
def Obligations.WaitAckPollsWithinItsBudget : Prop :=
  decode 0x00000006 = .ok .waitAck ∧
  ∀ s : State, s.lc = .ready → s.params.wf →
    (∀ k, k < s.params.ackPollMax → (∀ j, j < k → peerLevel s j = true) → peerLevel s k = false →
      exec .waitAck s = .next { s with
        result := .ok
        lines := ⟨some false, some .input, some true⟩
        trace := s.trace ++ ([.dir .input, .sda true, .wait s.params.tWackSettle, .scl true] ++
          (List.replicate k [Event.sample true, .wait s.params.tPoll]).flatten ++ [.sample false, .scl false])
        peer := drawSkip (k + 1) s.peer }) ∧
    ((∀ j, j < s.params.ackPollMax → peerLevel s j = true) →
      exec .waitAck s = .next { s with
        result := .nack
        lines := ⟨some true, some .output, some true⟩
        trace := s.trace ++ ([.dir .input, .sda true, .wait s.params.tWackSettle, .scl true] ++
          (List.replicate (s.params.ackPollMax - 1) [Event.sample true, .wait s.params.tPoll]).flatten ++ [.sample true] ++
          [.dir .output, .sda false, .wait s.params.tSettle, .scl true, .wait s.params.tSettle, .sda true])
        peer := drawSkip s.params.ackPollMax s.peer })

/-- R113: the result depends only on the samples: NACK if and only if none of the first ACK_POLL_MAX is low. -/
def Obligations.WaitAckResultIsTheSamples : Prop :=
  ∀ s : State, s.lc = .ready → s.params.wf →
    ∃ t, exec .waitAck s = .next t ∧
      (t.result = .nack ↔ ∀ j, j < s.params.ackPollMax → peerLevel s j = true) ∧
      (t.result = .ok ↔ ∃ j, j < s.params.ackPollMax ∧ peerLevel s j = false)

/-- R241: on the NACK path the wire shows a START condition immediately followed by a STOP condition. -/
def Obligations.AbortEdgeIsStartThenStop : Prop :=
  ∀ s : State, s.lc = .ready → s.params.wf → (∀ j, j < s.params.ackPollMax → peerLevel s j = true) →
    ∃ t es, exec .waitAck s = .next t ∧ t.trace = s.trace ++ es ∧ conditions s.lines es = [.start, .stop]

/-- R114: READ_BYTE, its words, its operand, its events and end state. Sample k + 1 is bit 7 - k of RXDATA, the master acknowledges
as ACKF says, and no condition shows on the wire. -/
def Obligations.ReadByteShiftsInMsbFirst : Prop :=
  (∀ w : Word, (∃ f, decode w = .ok (.readByte f)) ↔ w &&& 0xFFFFFFEF = 0x00000007) ∧
  (∀ (w : Word) (f : Bool), decode w = .ok (.readByte f) → f = w.getLsbD 4) ∧
  ∀ (s : State) (ackf : Bool), s.lc = .ready →
    ∃ (r : Byte) (es : List Event), (∀ k, k < 8 → r.getLsbD (7 - k) = peerLevel s k) ∧
      exec (.readByte ackf) s = .next { s with
        result := .ok
        rx := r
        lines := ⟨some false, some .output, some (!ackf)⟩
        trace := s.trace ++ es
        peer := drawSkip 8 s.peer } ∧
      es = .dir .input :: [0, 1, 2, 3, 4, 5, 6, 7].flatMap (fun k =>
          [.scl false, .wait s.params.tBit, .scl true, .sample (peerLevel s k), .wait s.params.tBit]) ++
        [.scl false, .wait s.params.tAck, .dir .output, .sda (!ackf), .wait s.params.tAck, .scl true,
          .wait s.params.tAck, .scl false, .wait s.params.tAck] ∧
      conditions s.lines es = []

/-- R115, R116: the master's acknowledge and not-acknowledge, internal to READ_BYTE: their events, their end states, and no
condition on the wire. -/
def Obligations.AckAndNackSequences : Prop :=
  ∀ s : State,
    (∃ es, ackSeq s = { s with lines := ⟨some false, some .output, some false⟩, trace := s.trace ++ es } ∧
      es = [.scl false, .wait s.params.tAck, .dir .output, .sda false, .wait s.params.tAck, .scl true, .wait s.params.tAck,
        .scl false, .wait s.params.tAck] ∧
      conditions s.lines es = [] ∧ ∃ r t, readByteSeq true s = (r, ackSeq t)) ∧
    (∃ es, nackSeq s = { s with lines := ⟨some false, some .output, some true⟩, trace := s.trace ++ es } ∧
      es = [.scl false, .wait s.params.tAck, .dir .output, .sda true, .wait s.params.tAck, .scl true, .wait s.params.tAck,
        .scl false, .wait s.params.tAck] ∧
      conditions s.lines es = [] ∧ ∃ r t, readByteSeq false s = (r, nackSeq t))

/-- R119: a loopback peer that records SDA at each SCL rise of SEND_BYTE(b) and answers the next eight samples with it makes
READ_BYTE return b. -/
def Obligations.LoopbackPeerReturnsTheByteSent : Prop :=
  ∀ (s : State) (b : Byte) (ackf : Bool) (later : List Level), s.lc = .ready →
    ∃ t es recorded, exec (.sendByte b) s = .next t ∧ t.trace = s.trace ++ es ∧
      clockedLevels s.lines es = recorded.map some ∧
      ∃ u, exec (.readByte ackf) { t with peer := ⟨recorded ++ later, t.peer.used⟩ } = .next u ∧ u.rx = b ∧
        u.peer.queue = later

/-! ### Lifecycle -/

/-- R180, R184: INIT, its word, its events and end state, from either lifecycle state. Where CONFIGURE leaves SDA_OUT = 0 raising
SDA makes a STOP condition, where it leaves 1 none; each pair of levels is left for some answers of Line Control, so neither is
sure. The levels stand beside ok in the event (log entry 5); how the model takes the draws is InitTakesItsDraws. -/
def Obligations.InitConfiguresAndIdlesTheBus : Prop :=
  decode 0x00000001 = .ok .init ∧
  (∀ s : State,
    (lineControlDraw s 0 = true → ∃ scl sda d es,
      exec .init s = .next { s with
        result := .ok
        lc := .ready
        lines := ⟨some true, some .output, some true⟩
        trace := s.trace ++ es
        lineControl := d } ∧
      es = [.configure (.ok scl sda), .scl true, .sda true] ∧
      conditions s.lines es = if sda then [] else [.stop]) ∧
    (lineControlDraw s 0 = false → ∃ d,
      exec .init s = .next { s with
        result := .configFail
        lc := .unconfigured
        lines := ⟨none, none, none⟩
        trace := s.trace ++ [.configure .fail]
        lineControl := d })) ∧
  ∀ (s : State) (scl sda : Level), ∃ d t, exec .init { s with lineControl := d } = .next t ∧
    t.trace = s.trace ++ [.configure (.ok scl sda), .scl true, .sda true]

/-- R181: DEINIT, its word, its event and end state. -/
def Obligations.DeinitReleasesTheBus : Prop :=
  decode 0x00000002 = .ok .deinit ∧
  ∀ s : State, s.lc = .ready → ∃ d,
    exec .deinit s = .next { s with
      result := if lineControlDraw s 0 then .ok else .configFail
      lc := .unconfigured
      lines := ⟨none, none, none⟩
      trace := s.trace ++ [.release (lineControlDraw s 0)]
      lineControl := d }

/-- The model's choice (log entry 5): an INIT whose CONFIGURE answers ok takes three draws, its answer and the levels of SCL and SDA in
that order; one that fails takes one, and so does DEINIT. -/
def Obligations.InitTakesItsDraws : Prop :=
  (∀ s t : State, exec .init s = .next t →
    t.lineControl = drawSkip (if lineControlDraw s 0 then 3 else 1) s.lineControl ∧
    (lineControlDraw s 0 = true → t.trace = s.trace ++
      [.configure (.ok (lineControlDraw s 1) (lineControlDraw s 2)), .scl true, .sda true])) ∧
  (∀ s t : State, s.lc = .ready → exec .deinit s = .next t → t.lineControl = drawSkip 1 s.lineControl)

/-- R185: every command but INIT is NOT_READY while LC = UNCONFIGURED: no line event, no state other than RESULT (and FAULTS). -/
def Obligations.OnlyInitRunsUnconfigured : Prop :=
  ∀ (i : Instr) (s : State), i ≠ .init → s.lc = .unconfigured →
    exec i s = .next { s with result := .notReady, faults := s.faults.add .notReady }

/-- R26: LC changes only when INIT or DEINIT completes (and at reset, R36); STATUS.READY reads it. -/
def Obligations.OnlyInitAndDeinitChangeLc : Prop :=
  (∀ (i : Instr) (s t : State), exec i s = .next t → i ≠ .init → i ≠ .deinit → t.lc = s.lc) ∧
  (∀ (s t : State) (e : HostEvent) (rest : List HostEvent), s.host = e :: rest → e ≠ .reset →
    (∀ w i, e = .access (.write32 0x000 w) → decode w = .ok i → i ≠ .init ∧ i ≠ .deinit) →
    step s = .next t → t.lc = s.lc) ∧
  (∀ s : State, (statusWord s).getLsbD 4 = true ↔ s.lc = .ready)

/-! ### Protocol commands -/

/-- R76, R140: the register address multiplexer and its select input, and every protocol command runs by them: its opcode's direction
picks the general sequence, its opcode's mode the register bytes, its B and G fields the address and the register. -/
def Obligations.RegisterMultiplexer : Prop :=
  (∀ g : Half, regBytes .noReg g = [] ∧ regBytes .adr8 g = [g.extractLsb' 0 8] ∧
    regBytes .adr16 g = [g.extractLsb' 8 8, g.extractLsb' 0 8]) ∧
  modeOf 0x8 = .noReg ∧ modeOf 0xD = .noReg ∧ modeOf 0x9 = .adr8 ∧ modeOf 0xB = .adr8 ∧ modeOf 0xA = .adr16 ∧
  modeOf 0xC = .adr16 ∧ readsOf 0x8 = false ∧ readsOf 0x9 = false ∧ readsOf 0xA = false ∧ readsOf 0xB = true ∧
  readsOf 0xC = true ∧ readsOf 0xD = true ∧
  (∀ i : Instr, i.isProtocol = true → readsOf (encodeFields i).op = i.isProtocolRead) ∧
  (∀ (a r : Byte) (g : Half),
    modeOf (encodeFields (.writeCommand a)).op = .noReg ∧ modeOf (encodeFields (.readCommand a)).op = .noReg ∧
    modeOf (encodeFields (.write a r)).op = .adr8 ∧ modeOf (encodeFields (.read a r)).op = .adr8 ∧
    modeOf (encodeFields (.writeAddress16 a g)).op = .adr16 ∧ modeOf (encodeFields (.readAddress16 a g)).op = .adr16) ∧
  (∀ (i : Instr) (s : State), i.isProtocol = true → s.lc = .ready → s.len.toNat ≤ s.params.bufBytes →
    exec i s =
      if readsOf (encodeFields i).op then
        readGen (modeOf (encodeFields i).op) (encodeFields i).b (encodeFields i).g s.len.toNat s
      else writeGen (modeOf (encodeFields i).op) (encodeFields i).b (encodeFields i).g s.len.toNat s)

/-- R141: the device address bytes. -/
def Obligations.DeviceAddressBytes : Prop :=
  ∀ a : Byte, writeForm a = a ∧ (readForm a).toNat = (a.toNat + 1) % 256 ∧
    (a.getLsbD 0 = false → readForm a = a ||| 0x01)

/-- R144, R150, R151, R152: a write command whose every byte is acknowledged, each at any sample within the budget: START, the
address and register bytes, DATA[0] to DATA[N-1], STOP. -/
def Obligations.WriteCommandsSendEveryByte : Prop :=
  ∀ (i : Instr) (hdr d : List Byte) (acks : List Nat) (s : State),
    writeHeader i = some hdr → s.lc = .ready → s.len.toNat ≤ s.params.bufBytes → d.length = s.len.toNat →
    (∀ j (h : j < d.length), memRead j s = some d[j]) →
    acks.length = hdr.length + d.length → (∀ k ∈ acks, k < s.params.ackPollMax) →
    answersAre s (acks.flatMap ackAnswers) →
    exec i s = .next { s with
      result := .ok
      lines := Lines.idle
      trace := s.trace ++ (startEvents s.params ++ (List.zipWith (sentEvents s.params) (hdr ++ d) acks).flatten ++
        stopEvents s.params)
      peer := drawSkip (acks.flatMap ackAnswers).length s.peer }

/-- R142, R144, R161: a write command stops at its first unacknowledged byte with RESULT = NACK; WAIT_ACK's STOP ends it and
nothing follows. Only the cells before and at that byte need hold a byte. -/
def Obligations.WriteCommandsAbortAtFirstNack : Prop :=
  ∀ (i : Instr) (hdr d sent rest : List Byte) (b : Byte) (acks : List Nat) (s : State),
    writeHeader i = some hdr → s.lc = .ready → s.len.toNat ≤ s.params.bufBytes → d.length ≤ s.len.toNat →
    (∀ j (h : j < d.length), memRead j s = some d[j]) → s.params.wf →
    hdr ++ d = sent ++ b :: rest → acks.length = sent.length → (∀ k ∈ acks, k < s.params.ackPollMax) →
    answersAre s (acks.flatMap ackAnswers ++ List.replicate s.params.ackPollMax true) →
    exec i s = .next { s with
      result := .nack
      lines := Lines.idle
      trace := s.trace ++ (startEvents s.params ++ (List.zipWith (sentEvents s.params) sent acks).flatten ++
        sendByteEvents s.params b ++ nackedEvents s.params)
      peer := drawSkip ((acks.flatMap ackAnswers).length + s.params.ackPollMax) s.peer }

/-- R52: a write command whose bytes so far were acknowledged and that meets a cell with no value stops there: the model's fault,
with the state as it is at the MemRead and F_UNWRITTEN recorded. -/
def Obligations.UnwrittenCellStopsAWrite : Prop :=
  ∀ (i : Instr) (hdr d : List Byte) (acks : List Nat) (s : State),
    writeHeader i = some hdr → s.lc = .ready → s.len.toNat ≤ s.params.bufBytes → d.length < s.len.toNat →
    (∀ j (h : j < d.length), memRead j s = some d[j]) → memRead d.length s = none →
    acks.length = hdr.length + d.length → (∀ k ∈ acks, k < s.params.ackPollMax) →
    answersAre s (acks.flatMap ackAnswers) →
    exec i s = .fault (.unwritten d.length { s with
      faults := s.faults.add .unwritten
      lines := ⟨some false, some .input, some true⟩
      trace := s.trace ++ (startEvents s.params ++ (List.zipWith (sentEvents s.params) (hdr ++ d) acks).flatten)
      peer := drawSkip (acks.flatMap ackAnswers).length s.peer })

/-- R145, R153, R154, R155: a read command whose every send is acknowledged, each at any sample within the budget: the bytes the
peer gives go to DATA[0] to DATA[N-1], ACK after every byte but the last, STOP; no other cell changes. -/
def Obligations.ReadCommandsStoreEveryByte : Prop :=
  ∀ (i : Instr) (hdr ds : List Byte) (ra : Byte) (acks : List Nat) (k : Nat) (s : State),
    readHeader i = some (hdr, ra) → s.lc = .ready → s.len.toNat ≤ s.params.bufBytes → ds.length = s.len.toNat →
    acks.length = hdr.length → (∀ n ∈ acks ++ [k], n < s.params.ackPollMax) →
    answersAre s ((acks ++ [k]).flatMap ackAnswers ++ ds.flatMap bitsMsbFirst) →
    ∃ d, exec i s = .next { s with
        result := .ok
        lines := Lines.idle
        data := d
        trace := s.trace ++ (readOpeningEvents s.params hdr acks ++ sentEvents s.params ra k ++
          receivedEvents s.params ds ++ stopEvents s.params)
        peer := drawSkip (((acks ++ [k]).flatMap ackAnswers).length + 8 * ds.length) s.peer } ∧
      (∀ j (h : j < ds.length), cellAt d j = some ds[j]) ∧ (∀ a, s.len.toNat ≤ a → cellAt d a = cellAt s.data a)

/-- R142, R145, R161: a read command stops at its first unacknowledged send with RESULT = NACK, and DATA is unchanged. -/
def Obligations.ReadCommandsAbortAtFirstNack : Prop :=
  ∀ (i : Instr) (hdr : List Byte) (ra : Byte) (acks : List Nat) (s : State),
    readHeader i = some (hdr, ra) → s.lc = .ready → s.len.toNat ≤ s.params.bufBytes → s.params.wf →
    (∀ k ∈ acks, k < s.params.ackPollMax) →
    answersAre s (acks.flatMap ackAnswers ++ List.replicate s.params.ackPollMax true) →
    (∀ (sent rest : List Byte) (b : Byte), hdr = sent ++ b :: rest → acks.length = sent.length →
      exec i s = .next { s with
        result := .nack
        lines := Lines.idle
        trace := s.trace ++ (startEvents s.params ++ (List.zipWith (sentEvents s.params) sent acks).flatten ++
          sendByteEvents s.params b ++ nackedEvents s.params)
        peer := drawSkip ((acks.flatMap ackAnswers).length + s.params.ackPollMax) s.peer }) ∧
    (acks.length = hdr.length →
      exec i s = .next { s with
        result := .nack
        lines := Lines.idle
        trace := s.trace ++ (readOpeningEvents s.params hdr acks ++ sendByteEvents s.params ra ++ nackedEvents s.params)
        peer := drawSkip ((acks.flatMap ackAnswers).length + s.params.ackPollMax) s.peer })

/-- R160: a protocol command makes exactly one STOP condition on the wire, whether it succeeds or fails, and leaves the bus idle. -/
def Obligations.ExactlyOneStopPerProtocolCommand : Prop :=
  ∀ (i : Instr) (s t : State), i.isProtocol = true → passesChecks i s → s.lines.settled → exec i s = .next t →
    ∃ es, t.trace = s.trace ++ es ∧ (conditions s.lines es).count .stop = 1 ∧ t.lines = Lines.idle

/-- R28, R52, R161: a read command changes no cell at or above N, and on failure none. -/
def Obligations.ReadCommandsTouchOnlyTheirCells : Prop :=
  ∀ (i : Instr) (s t : State), i.isProtocolRead = true → exec i s = .next t →
    (∀ a, s.len.toNat ≤ a → memRead a t = memRead a s) ∧ (t.result ≠ .ok → t.data = s.data)

/-! ### Frames and invariants -/

/-- R23, R24, R27, R28, R52: no command writes LEN; only READ_BYTE writes RXDATA; only the read commands write DATA; only INIT and
DEINIT take Line Control draws; INIT, DEINIT, START, STOP and SEND_BYTE take no sample. Every other field but RESULT, FAULTS, LC,
the lines and the trace is unchanged. -/
def Obligations.CommandsLeaveTheRestUnchanged : Prop :=
  ∀ (i : Instr) (s t : State), exec i s = .next t →
    t.params = s.params ∧ t.len = s.len ∧ t.host = s.host ∧ t.answer = s.answer ∧
    ((∀ f, i ≠ .readByte f) → t.rx = s.rx) ∧
    (i.isProtocolRead = false → ∀ a, memRead a t = memRead a s) ∧
    (i ≠ .init → i ≠ .deinit → t.lineControl = s.lineControl) ∧
    (i = .init ∨ i = .deinit ∨ i = .start ∨ i = .stop ∨ (∃ b, i = .sendByte b) → t.peer = s.peer)

/-- R65, R118: a command only appends to the trace, and every SAMPLE it appends is taken while SDA is an input. -/
def Obligations.SamplesAreTakenOnlyAsInput : Prop :=
  ∀ (i : Instr) (s t : State), exec i s = .next t →
    ∃ es, t.trace = s.trace ++ es ∧ samplesAreInputs s.lines es = true

/-- R117: after each command that passed the issue checks, the line state its row gives. -/
def Obligations.EndStatesOfTheLines : Prop :=
  ∀ (i : Instr) (s t : State), passesChecks i s → exec i s = .next t →
    (i = .init → t.result = .ok → t.lines = ⟨some true, some .output, some true⟩) ∧
    (i = .start → t.lines = ⟨some false, some .output, some false⟩) ∧
    (i = .stop → t.lines = ⟨some true, some .output, some true⟩) ∧
    (∀ b, i = .sendByte b → t.lines = ⟨some false, some .output, some (b.getLsbD 0)⟩) ∧
    (i = .waitAck → t.result = .ok → t.lines = ⟨some false, some .input, some true⟩) ∧
    (i = .waitAck → t.result = .nack → t.lines = ⟨some true, some .output, some true⟩) ∧
    (i = .readByte true → t.lines = ⟨some false, some .output, some false⟩) ∧
    (i = .readByte false → t.lines = ⟨some false, some .output, some true⟩)

/-- Every step keeps the invariant: parameters in range, DATA canonical and inside the buffer, the lines as LC says (R117, R183)
and as the trace says (R32, R100). -/
def Obligations.StepKeepsTheInvariant : Prop :=
  ∀ s t : State, s.Inv → step s = .next t → t.Inv

/-- The invariant holds at power-on, whatever the open parameters are. -/
def Obligations.PowerOnMeetsTheInvariant : Prop := State.reset.Inv

/-- R208: a fault kind once recorded stays, a reset included. -/
def Obligations.FaultsAreSticky : Prop :=
  ∀ (s t : State) (k : FaultKind), step s = .next t → s.faults.has k = true → t.faults.has k = true

/-- A step changes no parameter (R6) and takes exactly one entry of `host` (R60). -/
def Obligations.StepTakesOneAccess : Prop :=
  ∀ s t : State, step s = .next t → t.params = s.params ∧ t.host = s.host.tail

/-- R250, whole: the sum of the WAIT durations of each sequence, and its value with the reference values. -/
def Obligations.DelayBudget : Prop :=
  (∀ (i : Instr) (s t : State), i ≠ .waitAck → passesChecks i s → exec i s = .next t → s.params.wf →
    (∀ k, k < checksOf i s.len.toNat → peerLevel s k = false) →
    ∃ es, t.trace = s.trace ++ es ∧ waitSum es = budget i s.params s.len.toNat) ∧
  (∀ (s t : State) (k : Nat), s.lc = .ready → exec .waitAck s = .next t → k < s.params.ackPollMax →
    (∀ j, j < k → peerLevel s j = true) → peerLevel s k = false →
    ∃ es, t.trace = s.trace ++ es ∧ waitSum es = s.params.tWackSettle + k * s.params.tPoll) ∧
  (∀ s t : State, s.lc = .ready → exec .waitAck s = .next t → s.params.wf →
    (∀ j, j < s.params.ackPollMax → peerLevel s j = true) →
    ∃ es, t.trace = s.trace ++ es ∧
      waitSum es = s.params.tWackSettle + (s.params.ackPollMax - 1) * s.params.tPoll + 2 * s.params.tSettle) ∧
  (∀ p : Params, waitSum (masterAckEvents p false) = 4 * p.tAck ∧ waitSum (masterAckEvents p true) = 4 * p.tAck) ∧
  (∀ (p : Params) (n : Nat) (a r : Byte) (g : Half), p.tSettle = 15 → p.tBit = 10 → p.tAck = 20 → p.tPoll = 20 →
    p.tWackSettle = 15 → p.ackPollMax = 500 →
    budget .start p n = 30 ∧ budget .stop p n = 30 ∧ budget (.sendByte a) p n = 240 ∧
    p.tWackSettle + n * p.tPoll = 15 + 20 * n ∧
    p.tWackSettle + (p.ackPollMax - 1) * p.tPoll + 2 * p.tSettle = 10025 ∧ 4 * p.tAck = 80 ∧
    budget (.readByte true) p n = 240 ∧ budget (.readByte false) p n = 240 ∧
    budget (.writeCommand a) p n = 315 + 255 * n ∧ budget (.write a r) p n = 570 + 255 * n ∧
    budget (.writeAddress16 a g) p n = 825 + 255 * n ∧ budget (.read a r) p n = 855 + 240 * n ∧
    budget (.readAddress16 a g) p n = 1110 + 240 * n ∧ budget (.readCommand a) p n = 315 + 240 * n)
end

