-- ==== Sys2Proof/Laws/State.lean ====
section
/-! SUPPORT. For each update of the state, one lemma per field: what the field is after it. All hold by `rfl`. -/

namespace Sys2Proof.Machine

@[simp] theorem emit_params (e : Event) (s : State) : (emit e s).params = s.params := rfl
@[simp] theorem emit_len (e : Event) (s : State) : (emit e s).len = s.len := rfl
@[simp] theorem emit_result (e : Event) (s : State) : (emit e s).result = s.result := rfl
@[simp] theorem emit_rx (e : Event) (s : State) : (emit e s).rx = s.rx := rfl
@[simp] theorem emit_lc (e : Event) (s : State) : (emit e s).lc = s.lc := rfl
@[simp] theorem emit_lines (e : Event) (s : State) : (emit e s).lines = linesAfter e s.lines := rfl
@[simp] theorem emit_data (e : Event) (s : State) : (emit e s).data = s.data := rfl
@[simp] theorem emit_trace (e : Event) (s : State) : (emit e s).trace = s.trace ++ [e] := rfl
@[simp] theorem emit_faults (e : Event) (s : State) : (emit e s).faults = s.faults := rfl
@[simp] theorem emit_host (e : Event) (s : State) : (emit e s).host = s.host := rfl
@[simp] theorem emit_answer (e : Event) (s : State) : (emit e s).answer = s.answer := rfl
@[simp] theorem emit_peer (e : Event) (s : State) : (emit e s).peer = s.peer := rfl
@[simp] theorem emit_lineControl (e : Event) (s : State) : (emit e s).lineControl = s.lineControl := rfl

@[simp] theorem complete_params (c : Result) (s : State) : (complete c s).params = s.params := rfl
@[simp] theorem complete_len (c : Result) (s : State) : (complete c s).len = s.len := rfl
@[simp] theorem complete_result (c : Result) (s : State) : (complete c s).result = c := rfl
@[simp] theorem complete_rx (c : Result) (s : State) : (complete c s).rx = s.rx := rfl
@[simp] theorem complete_lc (c : Result) (s : State) : (complete c s).lc = s.lc := rfl
@[simp] theorem complete_lines (c : Result) (s : State) : (complete c s).lines = s.lines := rfl
@[simp] theorem complete_data (c : Result) (s : State) : (complete c s).data = s.data := rfl
@[simp] theorem complete_trace (c : Result) (s : State) : (complete c s).trace = s.trace := rfl
@[simp] theorem complete_faults (c : Result) (s : State) : (complete c s).faults = s.faults := rfl
@[simp] theorem complete_host (c : Result) (s : State) : (complete c s).host = s.host := rfl
@[simp] theorem complete_answer (c : Result) (s : State) : (complete c s).answer = s.answer := rfl
@[simp] theorem complete_peer (c : Result) (s : State) : (complete c s).peer = s.peer := rfl
@[simp] theorem complete_lineControl (c : Result) (s : State) : (complete c s).lineControl = s.lineControl := rfl

@[simp] theorem recordFault_params (k : FaultKind) (s : State) : (recordFault k s).params = s.params := rfl
@[simp] theorem recordFault_len (k : FaultKind) (s : State) : (recordFault k s).len = s.len := rfl
@[simp] theorem recordFault_result (k : FaultKind) (s : State) : (recordFault k s).result = s.result := rfl
@[simp] theorem recordFault_rx (k : FaultKind) (s : State) : (recordFault k s).rx = s.rx := rfl
@[simp] theorem recordFault_lc (k : FaultKind) (s : State) : (recordFault k s).lc = s.lc := rfl
@[simp] theorem recordFault_lines (k : FaultKind) (s : State) : (recordFault k s).lines = s.lines := rfl
@[simp] theorem recordFault_data (k : FaultKind) (s : State) : (recordFault k s).data = s.data := rfl
@[simp] theorem recordFault_trace (k : FaultKind) (s : State) : (recordFault k s).trace = s.trace := rfl
@[simp] theorem recordFault_faults (k : FaultKind) (s : State) : (recordFault k s).faults = s.faults.add k := rfl
@[simp] theorem recordFault_host (k : FaultKind) (s : State) : (recordFault k s).host = s.host := rfl
@[simp] theorem recordFault_answer (k : FaultKind) (s : State) : (recordFault k s).answer = s.answer := rfl
@[simp] theorem recordFault_peer (k : FaultKind) (s : State) : (recordFault k s).peer = s.peer := rfl
@[simp] theorem recordFault_lineControl (k : FaultKind) (s : State) : (recordFault k s).lineControl = s.lineControl := rfl

@[simp] theorem memWrite_params (j : Nat) (v : Byte) (s : State) : (memWrite j v s).params = s.params := rfl
@[simp] theorem memWrite_len (j : Nat) (v : Byte) (s : State) : (memWrite j v s).len = s.len := rfl
@[simp] theorem memWrite_result (j : Nat) (v : Byte) (s : State) : (memWrite j v s).result = s.result := rfl
@[simp] theorem memWrite_rx (j : Nat) (v : Byte) (s : State) : (memWrite j v s).rx = s.rx := rfl
@[simp] theorem memWrite_lc (j : Nat) (v : Byte) (s : State) : (memWrite j v s).lc = s.lc := rfl
@[simp] theorem memWrite_lines (j : Nat) (v : Byte) (s : State) : (memWrite j v s).lines = s.lines := rfl
@[simp] theorem memWrite_data (j : Nat) (v : Byte) (s : State) : (memWrite j v s).data = setCell j v s.data := rfl
@[simp] theorem memWrite_trace (j : Nat) (v : Byte) (s : State) : (memWrite j v s).trace = s.trace := rfl
@[simp] theorem memWrite_faults (j : Nat) (v : Byte) (s : State) : (memWrite j v s).faults = s.faults := rfl
@[simp] theorem memWrite_host (j : Nat) (v : Byte) (s : State) : (memWrite j v s).host = s.host := rfl
@[simp] theorem memWrite_answer (j : Nat) (v : Byte) (s : State) : (memWrite j v s).answer = s.answer := rfl
@[simp] theorem memWrite_peer (j : Nat) (v : Byte) (s : State) : (memWrite j v s).peer = s.peer := rfl
@[simp] theorem memWrite_lineControl (j : Nat) (v : Byte) (s : State) : (memWrite j v s).lineControl = s.lineControl := rfl

@[simp] theorem writeLen_params (v : Word) (s : State) : (writeLen v s).params = s.params := rfl
@[simp] theorem writeLen_len (v : Word) (s : State) : (writeLen v s).len = v.extractLsb' 0 16 := rfl
@[simp] theorem writeLen_result (v : Word) (s : State) : (writeLen v s).result = s.result := rfl
@[simp] theorem writeLen_rx (v : Word) (s : State) : (writeLen v s).rx = s.rx := rfl
@[simp] theorem writeLen_lc (v : Word) (s : State) : (writeLen v s).lc = s.lc := rfl
@[simp] theorem writeLen_lines (v : Word) (s : State) : (writeLen v s).lines = s.lines := rfl
@[simp] theorem writeLen_data (v : Word) (s : State) : (writeLen v s).data = s.data := rfl
@[simp] theorem writeLen_trace (v : Word) (s : State) : (writeLen v s).trace = s.trace := rfl
@[simp] theorem writeLen_faults (v : Word) (s : State) : (writeLen v s).faults = s.faults := rfl
@[simp] theorem writeLen_host (v : Word) (s : State) : (writeLen v s).host = s.host := rfl
@[simp] theorem writeLen_answer (v : Word) (s : State) : (writeLen v s).answer = s.answer := rfl
@[simp] theorem writeLen_peer (v : Word) (s : State) : (writeLen v s).peer = s.peer := rfl
@[simp] theorem writeLen_lineControl (v : Word) (s : State) : (writeLen v s).lineControl = s.lineControl := rfl

@[simp] theorem afterSample_params (s : State) : (afterSample s).params = s.params := rfl
@[simp] theorem afterSample_len (s : State) : (afterSample s).len = s.len := rfl
@[simp] theorem afterSample_result (s : State) : (afterSample s).result = s.result := rfl
@[simp] theorem afterSample_rx (s : State) : (afterSample s).rx = s.rx := rfl
@[simp] theorem afterSample_lc (s : State) : (afterSample s).lc = s.lc := rfl
@[simp] theorem afterSample_lines (s : State) : (afterSample s).lines = s.lines := rfl
@[simp] theorem afterSample_data (s : State) : (afterSample s).data = s.data := rfl
@[simp] theorem afterSample_trace (s : State) : (afterSample s).trace = s.trace ++ [.sample (peerLevel s 0)] := rfl
@[simp] theorem afterSample_faults (s : State) : (afterSample s).faults = s.faults := rfl
@[simp] theorem afterSample_host (s : State) : (afterSample s).host = s.host := rfl
@[simp] theorem afterSample_answer (s : State) : (afterSample s).answer = s.answer := rfl
@[simp] theorem afterSample_peer (s : State) : (afterSample s).peer = drawRest s.peer := rfl
@[simp] theorem afterSample_lineControl (s : State) : (afterSample s).lineControl = s.lineControl := rfl

@[simp] theorem applyReset_params (s : State) : (applyReset s).params = s.params := rfl
@[simp] theorem applyReset_len (s : State) : (applyReset s).len = 0 := rfl
@[simp] theorem applyReset_result (s : State) : (applyReset s).result = .none := rfl
@[simp] theorem applyReset_rx (s : State) : (applyReset s).rx = 0 := rfl
@[simp] theorem applyReset_lc (s : State) : (applyReset s).lc = .unconfigured := rfl
@[simp] theorem applyReset_lines (s : State) : (applyReset s).lines = Lines.unspecified := rfl
@[simp] theorem applyReset_data (s : State) : (applyReset s).data = [] := rfl
@[simp] theorem applyReset_trace (s : State) : (applyReset s).trace = [] := rfl
@[simp] theorem applyReset_faults (s : State) : (applyReset s).faults = s.faults := rfl
@[simp] theorem applyReset_host (s : State) : (applyReset s).host = s.host := rfl
@[simp] theorem applyReset_answer (s : State) : (applyReset s).answer = s.answer := rfl
@[simp] theorem applyReset_peer (s : State) : (applyReset s).peer = s.peer := rfl
@[simp] theorem applyReset_lineControl (s : State) : (applyReset s).lineControl = s.lineControl := rfl

@[simp] theorem refuseAccess_params (s : State) : (refuseAccess s).params = s.params := rfl
@[simp] theorem refuseAccess_len (s : State) : (refuseAccess s).len = s.len := rfl
@[simp] theorem refuseAccess_result (s : State) : (refuseAccess s).result = s.result := rfl
@[simp] theorem refuseAccess_rx (s : State) : (refuseAccess s).rx = s.rx := rfl
@[simp] theorem refuseAccess_lc (s : State) : (refuseAccess s).lc = s.lc := rfl
@[simp] theorem refuseAccess_lines (s : State) : (refuseAccess s).lines = s.lines := rfl
@[simp] theorem refuseAccess_data (s : State) : (refuseAccess s).data = s.data := rfl
@[simp] theorem refuseAccess_trace (s : State) : (refuseAccess s).trace = s.trace := rfl
@[simp] theorem refuseAccess_faults (s : State) : (refuseAccess s).faults = s.faults.add .access := rfl
@[simp] theorem refuseAccess_host (s : State) : (refuseAccess s).host = s.host := rfl
@[simp] theorem refuseAccess_answer (s : State) : (refuseAccess s).answer = .refused := rfl
@[simp] theorem refuseAccess_peer (s : State) : (refuseAccess s).peer = s.peer := rfl
@[simp] theorem refuseAccess_lineControl (s : State) : (refuseAccess s).lineControl = s.lineControl := rfl

@[simp] theorem illegalIssue_params (s : State) : (illegalIssue s).params = s.params := rfl
@[simp] theorem illegalIssue_len (s : State) : (illegalIssue s).len = s.len := rfl
@[simp] theorem illegalIssue_result (s : State) : (illegalIssue s).result = .illegal := rfl
@[simp] theorem illegalIssue_rx (s : State) : (illegalIssue s).rx = s.rx := rfl
@[simp] theorem illegalIssue_lc (s : State) : (illegalIssue s).lc = s.lc := rfl
@[simp] theorem illegalIssue_lines (s : State) : (illegalIssue s).lines = s.lines := rfl
@[simp] theorem illegalIssue_data (s : State) : (illegalIssue s).data = s.data := rfl
@[simp] theorem illegalIssue_trace (s : State) : (illegalIssue s).trace = s.trace := rfl
@[simp] theorem illegalIssue_faults (s : State) : (illegalIssue s).faults = s.faults.add .illegal := rfl
@[simp] theorem illegalIssue_host (s : State) : (illegalIssue s).host = s.host := rfl
@[simp] theorem illegalIssue_answer (s : State) : (illegalIssue s).answer = s.answer := rfl
@[simp] theorem illegalIssue_peer (s : State) : (illegalIssue s).peer = s.peer := rfl
@[simp] theorem illegalIssue_lineControl (s : State) : (illegalIssue s).lineControl = s.lineControl := rfl

@[simp] theorem notReadyIssue_params (s : State) : (notReadyIssue s).params = s.params := rfl
@[simp] theorem notReadyIssue_len (s : State) : (notReadyIssue s).len = s.len := rfl
@[simp] theorem notReadyIssue_result (s : State) : (notReadyIssue s).result = .notReady := rfl
@[simp] theorem notReadyIssue_rx (s : State) : (notReadyIssue s).rx = s.rx := rfl
@[simp] theorem notReadyIssue_lc (s : State) : (notReadyIssue s).lc = s.lc := rfl
@[simp] theorem notReadyIssue_lines (s : State) : (notReadyIssue s).lines = s.lines := rfl
@[simp] theorem notReadyIssue_data (s : State) : (notReadyIssue s).data = s.data := rfl
@[simp] theorem notReadyIssue_trace (s : State) : (notReadyIssue s).trace = s.trace := rfl
@[simp] theorem notReadyIssue_faults (s : State) : (notReadyIssue s).faults = s.faults.add .notReady := rfl
@[simp] theorem notReadyIssue_host (s : State) : (notReadyIssue s).host = s.host := rfl
@[simp] theorem notReadyIssue_answer (s : State) : (notReadyIssue s).answer = s.answer := rfl
@[simp] theorem notReadyIssue_peer (s : State) : (notReadyIssue s).peer = s.peer := rfl
@[simp] theorem notReadyIssue_lineControl (s : State) : (notReadyIssue s).lineControl = s.lineControl := rfl

@[simp] theorem overlapAccess_params (s : State) : (overlapAccess s).params = s.params := rfl
@[simp] theorem overlapAccess_len (s : State) : (overlapAccess s).len = s.len := rfl
@[simp] theorem overlapAccess_result (s : State) : (overlapAccess s).result = s.result := rfl
@[simp] theorem overlapAccess_rx (s : State) : (overlapAccess s).rx = s.rx := rfl
@[simp] theorem overlapAccess_lc (s : State) : (overlapAccess s).lc = s.lc := rfl
@[simp] theorem overlapAccess_lines (s : State) : (overlapAccess s).lines = s.lines := rfl
@[simp] theorem overlapAccess_data (s : State) : (overlapAccess s).data = s.data := rfl
@[simp] theorem overlapAccess_trace (s : State) : (overlapAccess s).trace = s.trace := rfl
@[simp] theorem overlapAccess_faults (s : State) : (overlapAccess s).faults = s.faults.add .concurrent := rfl
@[simp] theorem overlapAccess_host (s : State) : (overlapAccess s).host = s.host := rfl
@[simp] theorem overlapAccess_answer (s : State) : (overlapAccess s).answer = s.answer := rfl
@[simp] theorem overlapAccess_peer (s : State) : (overlapAccess s).peer = s.peer := rfl
@[simp] theorem overlapAccess_lineControl (s : State) : (overlapAccess s).lineControl = s.lineControl := rfl

end Sys2Proof.Machine
end

