-- ==== Sys2Proof/Laws/Encoding.lean ====
section
/-! SUPPORT. The fields of a word and its packing are inverse to each other. -/

namespace Sys2Proof

theorem fieldsOf_pack (f : Fields) : fieldsOf (pack f) = f := by
  rcases f with ⟨op, a, z, b, g⟩
  simp only [fieldsOf, pack, Fields.mk.injEq]
  refine ⟨?_, ?_, ?_, ?_, ?_⟩ <;>
    (apply BitVec.eq_of_getLsbD_eq; intro k hk; interval_cases k <;> simp)

theorem pack_fieldsOf (w : Word) : pack (fieldsOf w) = w := by
  apply BitVec.eq_of_getLsbD_eq
  intro k hk
  simp only [pack, fieldsOf]
  interval_cases k <;> simp

theorem fieldsOf_inj {v w : Word} (h : fieldsOf v = fieldsOf w) : v = w := by
  rw [← pack_fieldsOf v, h, pack_fieldsOf]

theorem decode_encode_eq (i : Instr) : decode (encode i) = decodeFields (encodeFields i) := by
  rw [decode, encode, fieldsOf_pack]

/-- What the must-be-0 check can answer. -/
theorem ifZero_ok {z : Bool} {i j : Instr} : ifZero z i = .ok j ↔ z = true ∧ i = j := by
  cases z <;> simp [ifZero]

theorem ifZero_error {z : Bool} {i : Instr} {e : Illegal} : ifZero z i = .error e ↔ z = false ∧ e = .mustBeZero := by
  cases z <;> simp [ifZero, eq_comm]

end Sys2Proof
end

