-- ==== Sys2Proof/Laws/Memory.lean ====
section
/-! SUPPORT. The laws of the DATA cells: a read after a write, the canonical form, and the bound of the indexes. -/

namespace Sys2Proof.Machine

@[simp] theorem cellAt_setCell_same (j : Nat) (v : Byte) (m : List Host.Cell) : cellAt (setCell j v m) j = some v := by
  induction m with
  | nil => simp [setCell, cellAt]
  | cons c m ih =>
    rcases c with ⟨a, b⟩
    simp only [setCell]
    split
    · simp [cellAt]
    · split
      · simp [cellAt]
      · rename_i h
        have : ¬ a = j := fun e => h e.symm
        simp [cellAt, this, ih]

theorem cellAt_setCell_other {j k : Nat} (v : Byte) (m : List Host.Cell) (h : k ≠ j) :
    cellAt (setCell j v m) k = cellAt m k := by
  have hj : ¬ j = k := fun e => h e.symm
  induction m with
  | nil => simp [setCell, cellAt, hj]
  | cons c m ih =>
    rcases c with ⟨a, b⟩
    simp only [setCell]
    split
    · simp [cellAt, hj]
    · split
      · rename_i e
        simp [cellAt, ← e, hj]
      · simp [cellAt, ih]

theorem cellsAbove_mono {i j : Nat} (h : i ≤ j) {m : List Host.Cell} (hm : cellsAbove j m = true) : cellsAbove i m = true := by
  cases m with
  | nil => rfl
  | cons c m =>
    simp only [cellsAbove, Bool.and_eq_true, decide_eq_true_eq] at hm ⊢
    exact ⟨by omega, hm.2⟩

theorem cellsAbove_setCell {i j : Nat} (v : Byte) {m : List Host.Cell} (h : i < j) (hm : cellsAbove i m = true) :
    cellsAbove i (setCell j v m) = true := by
  induction m generalizing i with
  | nil => simp [setCell, cellsAbove, h]
  | cons c m ih =>
    rcases c with ⟨a, b⟩
    simp only [cellsAbove, Bool.and_eq_true, decide_eq_true_eq] at hm
    simp only [setCell]
    split
    · simp only [cellsAbove, Bool.and_eq_true, decide_eq_true_eq]
      exact ⟨h, by assumption, hm.2⟩
    · split
      · rename_i e
        subst e
        simp [cellsAbove, h, hm.2]
      · have : a < j := by omega
        simp [cellsAbove, hm.1, ih this hm.2]

/-- Every write of a cell keeps the canonical form. -/
theorem memory_wf_setCell (j : Nat) (v : Byte) {m : List Host.Cell} (hm : Memory.wf m = true) :
    Memory.wf (setCell j v m) = true := by
  cases m with
  | nil => rfl
  | cons c m =>
    rcases c with ⟨a, b⟩
    simp only [Memory.wf] at hm
    simp only [setCell]
    split
    · simp [Memory.wf, cellsAbove, *]
    · split
      · rename_i e
        subst e
        simp [Memory.wf, hm]
      · have : a < j := by omega
        simp [Memory.wf, cellsAbove_setCell v this hm]

/-- The cells after a write are the written one and cells there were. -/
theorem mem_setCell {j : Nat} {v : Byte} {m : List Host.Cell} {c : Host.Cell} (h : c ∈ setCell j v m) :
    c = (j, v) ∨ c ∈ m := by
  induction m with
  | nil => simpa [setCell] using h
  | cons d m ih =>
    rcases d with ⟨a, b⟩
    simp only [setCell] at h
    split at h
    · simpa using h
    · split at h
      · rcases List.mem_cons.1 h with h | h
        · exact .inl h
        · exact .inr (List.mem_cons_of_mem _ h)
      · rcases List.mem_cons.1 h with h | h
        · exact .inr (h ▸ List.mem_cons_self)
        · rcases ih h with h | h
          · exact .inl h
          · exact .inr (List.mem_cons_of_mem _ h)

@[simp] theorem memRead_memWrite_same (j : Nat) (v : Byte) (s : State) : memRead j (memWrite j v s) = some v :=
  cellAt_setCell_same j v s.data

theorem memRead_memWrite_other {j k : Nat} (v : Byte) (s : State) (h : k ≠ j) :
    memRead k (memWrite j v s) = memRead k s :=
  cellAt_setCell_other v s.data h

theorem memory_wf_memWrite (j : Nat) (v : Byte) {s : State} (h : Memory.wf s.data = true) :
    Memory.wf (memWrite j v s).data = true :=
  memory_wf_setCell j v h

theorem memory_wf_reset : Memory.wf State.reset.data = true := rfl

/-- A write inside the buffer keeps DATA canonical and inside the buffer. -/
theorem dataInv_memWrite {j : Nat} {v : Byte} {s : State} (hj : j < s.params.bufBytes) (h : s.dataInv) :
    (memWrite j v s).dataInv := by
  refine ⟨memory_wf_memWrite j v h.1, fun c hc => ?_⟩
  rcases mem_setCell hc with rfl | hc
  · exact hj
  · exact h.2 c hc

end Sys2Proof.Machine
end

