-- ==== Sys2Proof/Laws/Draws.lean ====
section
/-! SUPPORT. Taking answers: what is still to come after some are taken. -/

namespace Sys2Proof.Machine

@[simp] theorem drawSkip_zero (d : Draws) : drawSkip 0 d = d := by simp [drawSkip]

theorem drawRest_eq_skip (d : Draws) : drawRest d = drawSkip 1 d := by simp [drawRest, drawSkip]

@[simp] theorem drawSkip_skip (m n : Nat) (d : Draws) : drawSkip m (drawSkip n d) = drawSkip (n + m) d := by
  simp [drawSkip, Nat.add_assoc]

@[simp] theorem drawSkip_rest (m : Nat) (d : Draws) : drawSkip m (drawRest d) = drawSkip (1 + m) d := by
  rw [drawRest_eq_skip, drawSkip_skip]

@[simp] theorem drawAt_skip (free : Nat → Bool) (n k : Nat) (d : Draws) :
    drawAt free (drawSkip n d) k = drawAt free d (n + k) := by
  simp [drawAt, drawSkip, Nat.add_assoc]

@[simp] theorem drawAt_rest (free : Nat → Bool) (k : Nat) (d : Draws) :
    drawAt free (drawRest d) k = drawAt free d (1 + k) := by
  rw [drawRest_eq_skip, drawAt_skip]

/-- The answers of the peer depend on the stream alone. -/
theorem peerLevel_congr {s t : State} (h : t.peer = s.peer) (k : Nat) : peerLevel t k = peerLevel s k := by
  simp [peerLevel, h]

theorem peerLevel_skip {s t : State} {n : Nat} (h : t.peer = drawSkip n s.peer) (k : Nat) :
    peerLevel t k = peerLevel s (n + k) := by
  simp [peerLevel, h]

end Sys2Proof.Machine
end

