-- ==== Sys2Proof/Laws/Engine.lean ====
section
/-! SUPPORT. What each sequence of the engine does, said once: emitting events, the five primitives, and the two ways a WAIT_ACK
ends. Callers cite these and never unfold a sequence. -/

namespace Sys2Proof.Machine

@[simp] theorem linesAfterAll_nil (l : Lines) : linesAfterAll [] l = l := rfl

@[simp] theorem linesAfterAll_cons (e : Event) (es : List Event) (l : Lines) :
    linesAfterAll (e :: es) l = linesAfterAll es (linesAfter e l) := rfl

theorem linesAfterAll_append (es fs : List Event) (l : Lines) :
    linesAfterAll (es ++ fs) l = linesAfterAll fs (linesAfterAll es l) := by
  simp [linesAfterAll, List.foldl_append]

/-- Emitting events: they take effect on the lines in order and are appended to the trace. -/
theorem emitAll_eq (es : List Event) (s : State) :
    emitAll es s = { s with lines := linesAfterAll es s.lines, trace := s.trace ++ es } := by
  induction es generalizing s with
  | nil => simp [emitAll]
  | cons e es ih =>
    have : emitAll (e :: es) s = emitAll es (emit e s) := rfl
    rw [this, ih]
    simp [emit]

theorem emitAll_append (es fs : List Event) (s : State) : emitAll (es ++ fs) s = emitAll fs (emitAll es s) := by
  simp [emitAll, List.foldl_append]

theorem startSeq_eq (s : State) :
    startSeq s = { s with
      lines := ⟨some false, some .output, some false⟩, trace := s.trace ++ startEvents s.params } := by
  simp [startSeq, emitAll_eq, startEvents, linesAfter]

theorem stopSeq_eq (s : State) :
    stopSeq s = { s with lines := Lines.idle, trace := s.trace ++ stopEvents s.params } := by
  simp [stopSeq, emitAll_eq, stopEvents, linesAfter, Lines.idle]

/-- The lines after SEND_BYTE(b) (R117). -/
theorem linesAfterAll_sendByte (p : Params) (b : Byte) (l : Lines) :
    linesAfterAll (sendByteEvents p b) l = ⟨some false, some .output, some (b.getLsbD 0)⟩ := by
  simp [sendByteEvents, bitsMsbFirst, bitCell, linesAfter]

theorem sendByteSeq_eq (b : Byte) (s : State) :
    sendByteSeq b s = { s with
      lines := ⟨some false, some .output, some (b.getLsbD 0)⟩, trace := s.trace ++ sendByteEvents s.params b } := by
  rw [sendByteSeq, emitAll_eq, linesAfterAll_sendByte]

/-- k polls that see SDA high and wait. -/
def highPollEvents (p : Params) (k : Nat) : List Event :=
  (List.replicate k [Event.sample true, .wait p.tPoll]).flatten

@[simp] theorem highPollEvents_zero (p : Params) : highPollEvents p 0 = [] := rfl

theorem highPollEvents_succ (p : Params) (k : Nat) :
    highPollEvents p (k + 1) = [.sample true, .wait p.tPoll] ++ highPollEvents p k := rfl

theorem afterSample_eq (s : State) :
    afterSample s = { s with trace := s.trace ++ [.sample (peerLevel s 0)], peer := drawSkip 1 s.peer } := by
  rw [← drawRest_eq_skip]; rfl

/-- A poll loop whose (k + 1)-th sample is the first low one. -/
theorem pollAck_ack {m k : Nat} (hk : k ≤ m) {s : State} (hi : ∀ j, j < k → peerLevel s j = true)
    (lo : peerLevel s k = false) :
    pollAck m s = (.ack, { s with
      lines := { s.lines with sclOut := some false }
      trace := s.trace ++ (highPollEvents s.params k ++ [.sample false, .scl false])
      peer := drawSkip (k + 1) s.peer }) := by
  induction k generalizing m s with
  | zero =>
    unfold pollAck
    simp [lo, emit, afterSample_eq, linesAfter]
  | succ k ih =>
    obtain ⟨m, rfl⟩ : ∃ n, m = n + 1 := ⟨m - 1, by omega⟩
    have h0 : peerLevel s 0 = true := hi 0 (by omega)
    unfold pollAck
    simp only [h0]
    have shift : ∀ j, peerLevel (emit (.wait s.params.tPoll) (afterSample s)) j = peerLevel s (1 + j) :=
      fun j => peerLevel_skip (by simp [drawRest_eq_skip]) j
    rw [ih (by omega) (fun j hj => by rw [shift]; exact hi _ (by omega)) (by rw [shift, Nat.add_comm]; exact lo)]
    simp [emit, afterSample_eq, linesAfter, h0, highPollEvents_succ, Nat.add_comm, Nat.add_left_comm]

/-- A poll loop whose samples are all high: the last one is followed by STOP. -/
theorem pollAck_nack {m : Nat} {s : State} (hi : ∀ j, j ≤ m → peerLevel s j = true) :
    pollAck m s = (.nack, { s with
      lines := Lines.idle
      trace := s.trace ++ (highPollEvents s.params m ++ [.sample true] ++ stopEvents s.params)
      peer := drawSkip (m + 1) s.peer }) := by
  induction m generalizing s with
  | zero =>
    unfold pollAck
    simp [hi 0 (by omega), stopSeq_eq, afterSample_eq]
  | succ m ih =>
    have h0 : peerLevel s 0 = true := hi 0 (by omega)
    unfold pollAck
    simp only [h0]
    have shift : ∀ j, peerLevel (emit (.wait s.params.tPoll) (afterSample s)) j = peerLevel s (1 + j) :=
      fun j => peerLevel_skip (by simp [drawRest_eq_skip]) j
    rw [ih (fun j hj => by rw [shift]; exact hi _ (by omega))]
    simp [emit, afterSample_eq, linesAfter, h0, highPollEvents_succ, Nat.add_comm, Nat.add_left_comm]

/-- WAIT_ACK's events when sample k + 1 is the first low one. -/
def ackEvents (p : Params) (k : Nat) : List Event :=
  ackSetupEvents p ++ (highPollEvents p k ++ [.sample false, .scl false])

/-- WAIT_ACK's events when no sample is low. -/
def nackEvents (p : Params) : List Event :=
  ackSetupEvents p ++ (highPollEvents p (p.ackPollMax - 1) ++ [.sample true] ++ stopEvents p)

theorem waitAckSeq_ack {k : Nat} {s : State} (hk : k ≤ s.params.ackPollMax - 1)
    (hi : ∀ j, j < k → peerLevel s j = true) (lo : peerLevel s k = false) :
    waitAckSeq s = (.ack, { s with
      lines := ⟨some false, some .input, some true⟩
      trace := s.trace ++ ackEvents s.params k
      peer := drawSkip (k + 1) s.peer }) := by
  have same : ∀ j, peerLevel (emitAll (ackSetupEvents s.params) s) j = peerLevel s j :=
    fun j => peerLevel_congr (by rw [emitAll_eq]) j
  rw [waitAckSeq, pollAck_ack (k := k) hk (fun j hj => by rw [same]; exact hi j hj) (by rw [same]; exact lo)]
  simp [emitAll_eq, ackSetupEvents, linesAfter, ackEvents]

theorem waitAckSeq_nack {s : State} (hi : ∀ j, j ≤ s.params.ackPollMax - 1 → peerLevel s j = true) :
    waitAckSeq s = (.nack, { s with
      lines := Lines.idle
      trace := s.trace ++ nackEvents s.params
      peer := drawSkip (s.params.ackPollMax - 1 + 1) s.peer }) := by
  have same : ∀ j, peerLevel (emitAll (ackSetupEvents s.params) s) j = peerLevel s j :=
    fun j => peerLevel_congr (by rw [emitAll_eq]) j
  rw [waitAckSeq, pollAck_nack (fun j hj => by rw [same]; exact hi j hj)]
  simp [emitAll_eq, ackSetupEvents, nackEvents]

/-- Among the samples up to `m`, either one is the first low one or all are high. -/
theorem firstLow_or_allHigh (s : State) (m : Nat) :
    (∃ k, k ≤ m ∧ (∀ j, j < k → peerLevel s j = true) ∧ peerLevel s k = false) ∨
      ∀ j, j ≤ m → peerLevel s j = true := by
  induction m with
  | zero =>
    cases h : peerLevel s 0
    · exact .inl ⟨0, Nat.le_refl _, fun j hj => absurd hj (Nat.not_lt_zero j), h⟩
    · exact .inr fun j hj => by rw [Nat.le_zero.1 hj]; exact h
  | succ m ih =>
    rcases ih with ⟨k, hk, hi, lo⟩ | hi
    · exact .inl ⟨k, by omega, hi, lo⟩
    · cases h : peerLevel s (m + 1)
      · exact .inl ⟨m + 1, Nat.le_refl _, fun j hj => hi j (by omega), h⟩
      · refine .inr fun j hj => ?_
        rcases Nat.lt_or_ge j (m + 1) with hj' | hj'
        · exact hi j (by omega)
        · rw [show j = m + 1 by omega]; exact h

/-- READ_BYTE's bit cell with its sample. -/
def readCell (p : Params) (b : Level) : List Event := [.scl false, .wait p.tBit, .scl true, .sample b, .wait p.tBit]

theorem readBit_eq (s : State) :
    readBit s = { s with
      lines := { s.lines with sclOut := some true }
      trace := s.trace ++ readCell s.params (peerLevel s 0)
      peer := drawSkip 1 s.peer } := by
  have same : peerLevel (emitAll [.scl false, .wait s.params.tBit, .scl true] s) 0 = peerLevel s 0 :=
    peerLevel_congr (by rw [emitAll_eq]) 0
  rw [readBit, afterSample_eq, same]
  simp [emitAll_eq, emit, linesAfter, readCell]

/-- The next `n` answers of the peer. -/
def nextLevels (s : State) (n : Nat) : List Level := (List.range n).map (peerLevel s)

theorem nextLevels_succ (s : State) (n : Nat) :
    nextLevels s (n + 1) = peerLevel s 0 :: (List.range n).map (fun j => peerLevel s (1 + j)) := by
  simp [nextLevels, List.range_succ_eq_map, Function.comp_def, Nat.add_comm]

theorem readBits_eq (n : Nat) (r : Byte) (s : State) :
    readBits (n + 1) r s =
      ((nextLevels s (n + 1)).foldl shiftIn r, { s with
        lines := { s.lines with sclOut := some true }
        trace := s.trace ++ (nextLevels s (n + 1)).flatMap (readCell s.params)
        peer := drawSkip (n + 1) s.peer }) := by
  induction n generalizing r s with
  | zero => simp [readBits, readBit_eq, nextLevels]
  | succ n ih =>
    have shift : nextLevels (readBit s) (n + 1) = (List.range (n + 1)).map (fun j => peerLevel s (1 + j)) := by
      refine List.map_congr_left fun j _ => peerLevel_skip (by rw [readBit_eq]) j
    rw [readBits, ih, shift, nextLevels_succ s (n + 1)]
    simp [readBit_eq, Nat.add_comm]

/-- READ_BYTE's events: eight cells, then the master's acknowledge. -/
def readEvents (p : Params) (bs : List Level) (ackf : Bool) : List Event :=
  .dir .input :: (bs.flatMap (readCell p) ++ masterAckEvents p (!ackf))

theorem readByteSeq_eq (ackf : Bool) (s : State) :
    readByteSeq ackf s =
      ((nextLevels s 8).foldl shiftIn 0, { s with
        lines := ⟨some false, some .output, some (!ackf)⟩
        trace := s.trace ++ readEvents s.params (nextLevels s 8) ackf
        peer := drawSkip 8 s.peer }) := by
  have same : nextLevels (emit (.dir .input) s) 8 = nextLevels s 8 :=
    List.map_congr_left fun j _ => peerLevel_congr (by simp) j
  rw [readByteSeq, readBits_eq, same]
  cases ackf <;>
    simp [ackSeq, nackSeq, emitAll_eq, masterAckEvents, linesAfter, readEvents, emit]

/-- Shifting eight levels in gives the byte whose bits they are, most-significant first (R114). -/
theorem byteOf_bitsMsbFirst (b : Byte) : (bitsMsbFirst b).foldl shiftIn 0 = b := by
  apply BitVec.eq_of_getLsbD_eq
  intro k hk
  interval_cases k <;> simp [bitsMsbFirst, shiftIn]

end Sys2Proof.Machine
end

