-- ==== Sys2Proof/Laws/Wire.lean ====
section
/-! SUPPORT. The views of a trace, sequence by sequence: where samples are taken, which conditions the wire shows, and the sum of the
delays. -/

namespace Sys2Proof.Machine

theorem samplesAreInputs_append (l : Lines) (es fs : List Event) :
    samplesAreInputs l (es ++ fs) = (samplesAreInputs l es && samplesAreInputs (linesAfterAll es l) fs) := by
  induction es generalizing l with
  | nil => simp [samplesAreInputs]
  | cons e es ih => cases e <;> simp [samplesAreInputs, ih, Bool.and_assoc]

theorem conditions_append (l : Lines) (es fs : List Event) :
    conditions l (es ++ fs) = conditions l es ++ conditions (linesAfterAll es l) fs := by
  induction es generalizing l with
  | nil => simp [conditions]
  | cons e es ih => simp [conditions, ih]

theorem clockedLevels_append (l : Lines) (es fs : List Event) :
    clockedLevels l (es ++ fs) = clockedLevels l es ++ clockedLevels (linesAfterAll es l) fs := by
  induction es generalizing l with
  | nil => simp [clockedLevels]
  | cons e es ih => simp [clockedLevels, ih]

@[simp] theorem waitSum_append (es fs : List Event) : waitSum (es ++ fs) = waitSum es + waitSum fs := by
  induction es with
  | nil => simp [waitSum]
  | cons e es ih => cases e <;> simp [waitSum, ih, Nat.add_assoc]

/-- With SCL_OUT not 1 no event makes a condition (R101). -/
theorem conditionOf_sclLow {l : Lines} (h : l.sclOut ≠ some true) (e : Event) : conditionOf l e = none := by
  have h1 : l ≠ ⟨some true, some .output, some true⟩ := fun hl => h (by rw [hl])
  have h0 : l ≠ ⟨some true, some .output, some false⟩ := fun hl => h (by rw [hl])
  rcases e with d | b | b | n | b | b | b <;> try rfl
  cases b <;> simp [conditionOf, h1, h0]

/-! ### k polls that see SDA high -/

@[simp] theorem linesAfterAll_highPolls (p : Params) (k : Nat) (l : Lines) :
    linesAfterAll (highPollEvents p k) l = l := by
  induction k with
  | zero => rfl
  | succ k ih => simp [highPollEvents_succ, linesAfter, ih]

theorem samplesAreInputs_highPolls (p : Params) (k : Nat) {l : Lines} (h : l.sdaDir = some .input) :
    samplesAreInputs l (highPollEvents p k) = true := by
  induction k with
  | zero => rfl
  | succ k ih => simp [highPollEvents_succ, samplesAreInputs, linesAfter, h, ih]

@[simp] theorem conditions_highPolls (p : Params) (k : Nat) (l : Lines) : conditions l (highPollEvents p k) = [] := by
  induction k with
  | zero => rfl
  | succ k ih => simp [highPollEvents_succ, conditions, conditionOf, linesAfter, ih]

@[simp] theorem waitSum_highPolls (p : Params) (k : Nat) : waitSum (highPollEvents p k) = k * p.tPoll := by
  induction k with
  | zero => simp [waitSum]
  | succ k ih => simp [highPollEvents_succ, waitSum, ih, Nat.succ_mul, Nat.add_comm]

/-! ### START and STOP -/

@[simp] theorem linesAfterAll_start (p : Params) (l : Lines) :
    linesAfterAll (startEvents p) l = ⟨some false, some .output, some false⟩ := by
  simp [startEvents, linesAfter]

@[simp] theorem linesAfterAll_stop (p : Params) (l : Lines) : linesAfterAll (stopEvents p) l = Lines.idle := by
  simp [stopEvents, linesAfter, Lines.idle]

@[simp] theorem samplesAreInputs_start (p : Params) (l : Lines) : samplesAreInputs l (startEvents p) = true := by
  simp [startEvents, samplesAreInputs]

@[simp] theorem samplesAreInputs_stop (p : Params) (l : Lines) : samplesAreInputs l (stopEvents p) = true := by
  simp [stopEvents, samplesAreInputs]

/-- From the line states R117 allows, START makes one START condition and no STOP condition. -/
theorem conditions_start (p : Params) {l : Lines} (h : l.settled) : conditions l (startEvents p) = [.start] := by
  rcases h with h | h | h | h <;> subst h <;>
    simp [startEvents, conditions, conditionOf, linesAfter, Lines.idle]

theorem conditions_stop_sclLow (p : Params) {l : Lines} (h : l.sclOut = some false) :
    conditions l (stopEvents p) = [.stop] := by
  rcases l with ⟨c, d, o⟩
  simp only at h
  subst h
  simp [stopEvents, conditions, conditionOf, linesAfter]

/-- STOP from the idle bus shows an empty START and STOP pair (R111). -/
theorem conditions_stop_idle (p : Params) : conditions Lines.idle (stopEvents p) = [.start, .stop] := by
  simp [stopEvents, conditions, conditionOf, linesAfter, Lines.idle]

@[simp] theorem waitSum_start (p : Params) : waitSum (startEvents p) = 2 * p.tSettle := by
  simp [startEvents, waitSum]; omega

@[simp] theorem waitSum_stop (p : Params) : waitSum (stopEvents p) = 2 * p.tSettle := by
  simp [stopEvents, waitSum]; omega

/-! ### INIT -/

/-- Raising the lines after CONFIGURE makes a STOP condition where it left SDA low, none where it left SDA high (R180). -/
theorem conditions_init (l : Lines) (scl sda : Level) :
    conditions l [.configure (.ok scl sda), .scl true, .sda true] = if sda then [] else [.stop] := by
  cases sda <;> simp [conditions, conditionOf, linesAfter]

/-! ### SEND_BYTE -/

theorem samplesAreInputs_bitCells (p : Params) (bs : List Level) (l : Lines) :
    samplesAreInputs l (bs.flatMap (bitCell p)) = true := by
  induction bs generalizing l with
  | nil => rfl
  | cons b bs ih =>
    rw [List.flatMap_cons, samplesAreInputs_append, ih]
    simp [bitCell, samplesAreInputs]

theorem waitSum_bitCells (p : Params) (bs : List Level) : waitSum (bs.flatMap (bitCell p)) = bs.length * (3 * p.tBit) := by
  induction bs with
  | nil => simp [waitSum]
  | cons b bs ih =>
    simp only [List.flatMap_cons, waitSum_append, ih, List.length_cons, Nat.succ_mul]
    simp [bitCell, waitSum]
    omega

@[simp] theorem samplesAreInputs_sendByte (p : Params) (b : Byte) (l : Lines) :
    samplesAreInputs l (sendByteEvents p b) = true := by
  rw [sendByteEvents, samplesAreInputs, samplesAreInputs_bitCells]
  intro b hb; cases hb

theorem conditions_sendByte_sclLow (p : Params) (b : Byte) {l : Lines} (h : l.sclOut = some false) :
    conditions l (sendByteEvents p b) = [] := by
  have cell : ∀ (bs : List Level) (m : Lines), m.sclOut = some false → conditions m (bs.flatMap (bitCell p)) = [] := by
    intro bs
    induction bs with
    | nil => intro m _; rfl
    | cons v bs ih =>
      intro m hm
      rw [List.flatMap_cons, conditions_append, ih _ (by simp [bitCell, linesAfter])]
      simp only [bitCell, conditions, conditionOf_sclLow (l := m) (e := .sda v) (by simp [hm])]
      simp [conditionOf]
  rw [sendByteEvents, conditions, conditionOf_sclLow (by simp [h]), cell _ _ (by simp [linesAfter, h])]
  rfl

@[simp] theorem waitSum_sendByte (p : Params) (b : Byte) : waitSum (sendByteEvents p b) = 24 * p.tBit := by
  rw [sendByteEvents, waitSum, waitSum_bitCells]
  · simp [bitsMsbFirst]; omega
  · intro t ht; cases ht

/-! ### WAIT_ACK -/

@[simp] theorem linesAfterAll_ack (p : Params) (k : Nat) (l : Lines) :
    linesAfterAll (ackEvents p k) l = ⟨some false, some .input, some true⟩ := by
  simp [ackEvents, linesAfterAll_append, ackSetupEvents, linesAfter]

@[simp] theorem linesAfterAll_nack (p : Params) (l : Lines) : linesAfterAll (nackEvents p) l = Lines.idle := by
  simp [nackEvents, linesAfterAll_append]

@[simp] theorem samplesAreInputs_ack (p : Params) (k : Nat) (l : Lines) : samplesAreInputs l (ackEvents p k) = true := by
  simp [ackEvents, ackSetupEvents, samplesAreInputs_append, samplesAreInputs, linesAfter, samplesAreInputs_highPolls]

@[simp] theorem samplesAreInputs_nack (p : Params) (l : Lines) : samplesAreInputs l (nackEvents p) = true := by
  simp [nackEvents, ackSetupEvents, samplesAreInputs_append, samplesAreInputs, linesAfter, samplesAreInputs_highPolls]

@[simp] theorem conditions_ack (p : Params) (k : Nat) (l : Lines) : conditions l (ackEvents p k) = [] := by
  simp [ackEvents, ackSetupEvents, conditions_append, conditions, conditionOf, linesAfter]

/-- The abort edge (R241). -/
@[simp] theorem conditions_nack (p : Params) (l : Lines) : conditions l (nackEvents p) = [.start, .stop] := by
  simp [nackEvents, ackSetupEvents, conditions_append, conditions, conditionOf, linesAfter, stopEvents]

@[simp] theorem waitSum_ack (p : Params) (k : Nat) : waitSum (ackEvents p k) = p.tWackSettle + k * p.tPoll := by
  simp [ackEvents, ackSetupEvents, waitSum]

@[simp] theorem waitSum_nack (p : Params) :
    waitSum (nackEvents p) = p.tWackSettle + (p.ackPollMax - 1) * p.tPoll + 2 * p.tSettle := by
  simp [nackEvents, ackSetupEvents, waitSum, Nat.add_assoc]

/-! ### READ_BYTE -/

theorem linesAfterAll_readCells (p : Params) (bs : List Level) (l : Lines) :
    linesAfterAll (bs.flatMap (readCell p)) l = if bs = [] then l else { l with sclOut := some true } := by
  induction bs generalizing l with
  | nil => simp
  | cons b bs ih =>
    rw [List.flatMap_cons, linesAfterAll_append, ih]
    by_cases h : bs = [] <;> simp [h, readCell, linesAfter]

@[simp] theorem linesAfterAll_read (p : Params) (bs : List Level) (ackf : Bool) (l : Lines) :
    linesAfterAll (readEvents p bs ackf) l = ⟨some false, some .output, some (!ackf)⟩ := by
  simp [readEvents, linesAfterAll_append, masterAckEvents, linesAfter]

theorem samplesAreInputs_readCells (p : Params) (bs : List Level) {l : Lines} (h : l.sdaDir = some .input) :
    samplesAreInputs l (bs.flatMap (readCell p)) = true := by
  induction bs generalizing l with
  | nil => rfl
  | cons b bs ih =>
    rw [List.flatMap_cons, samplesAreInputs_append, ih (by simp [readCell, linesAfter, h])]
    simp [readCell, samplesAreInputs, linesAfter, h]

@[simp] theorem samplesAreInputs_read (p : Params) (bs : List Level) (ackf : Bool) (l : Lines) :
    samplesAreInputs l (readEvents p bs ackf) = true := by
  rw [readEvents, samplesAreInputs, samplesAreInputs_append, samplesAreInputs_readCells _ _ (by simp [linesAfter])]
  · simp [masterAckEvents, samplesAreInputs]
  · intro b hb; cases hb

theorem conditions_readCells (p : Params) (bs : List Level) (l : Lines) : conditions l (bs.flatMap (readCell p)) = [] := by
  induction bs generalizing l with
  | nil => rfl
  | cons b bs ih =>
    rw [List.flatMap_cons, conditions_append, ih]
    simp [readCell, conditions, conditionOf]

/-- Every SDA event of READ_BYTE has SCL low, so it makes no condition (R115). -/
@[simp] theorem conditions_read (p : Params) (bs : List Level) (ackf : Bool) (l : Lines) :
    conditions l (readEvents p bs ackf) = [] := by
  rw [readEvents, conditions, conditions_append, conditions_readCells]
  cases ackf <;> simp [masterAckEvents, conditions, conditionOf, linesAfter]

theorem waitSum_readCells (p : Params) (bs : List Level) :
    waitSum (bs.flatMap (readCell p)) = bs.length * (2 * p.tBit) := by
  induction bs with
  | nil => simp [waitSum]
  | cons b bs ih =>
    simp only [List.flatMap_cons, waitSum_append, ih, List.length_cons, Nat.succ_mul]
    simp [readCell, waitSum]
    omega

@[simp] theorem waitSum_masterAck (p : Params) (v : Level) : waitSum (masterAckEvents p v) = 4 * p.tAck := by
  simp [masterAckEvents, waitSum]; omega

@[simp] theorem waitSum_read (p : Params) (bs : List Level) (ackf : Bool) :
    waitSum (readEvents p bs ackf) = bs.length * (2 * p.tBit) + 4 * p.tAck := by
  simp [readEvents, waitSum, waitSum_readCells]

end Sys2Proof.Machine
end

