-- ==== Sys2Proof/Laws/Protocol.lean ====
section
/-! SUPPORT. What a checked send, a list of them, a data phase and the two general sequences of the protocol layer can do, said once. -/

namespace Sys2Proof.Machine

/-! ### The peer's next answers -/

/-- The next answers of the peer are `st`. -/
def answers (s : State) (st : List Level) : Prop := nextLevels s st.length = st

theorem nextLevels_congr {s t : State} (h : t.peer = s.peer) (n : Nat) : nextLevels t n = nextLevels s n :=
  List.map_congr_left fun j _ => peerLevel_congr h j

theorem answers_congr {s t : State} {st : List Level} (h : t.peer = s.peer) (ha : answers s st) : answers t st := by
  rw [answers, nextLevels_congr h]; exact ha

theorem answers_append {s t : State} {st later : List Level} (h : t.peer = drawSkip st.length s.peer) :
    answers s (st ++ later) ↔ answers s st ∧ answers t later := by
  have shift : nextLevels t later.length = (List.range later.length).map (fun j => peerLevel s (st.length + j)) :=
    List.map_congr_left fun j _ => peerLevel_skip h j
  rw [answers, answers, answers, shift, nextLevels, List.length_append, List.range_add, List.map_append, List.map_map]
  constructor
  · intro e
    have := List.append_inj e (by simp)
    exact ⟨this.1, this.2⟩
  · rintro ⟨h1, h2⟩
    have h2' : List.map (peerLevel s ∘ fun x => st.length + x) (List.range later.length) = later := h2
    rw [h2']
    exact congrArg (· ++ later) h1

theorem answers_at {s : State} {st : List Level} (h : answers s st) {j : Nat} (hj : j < st.length) :
    peerLevel s j = st[j] := by
  have e : (nextLevels s st.length)[j]? = st[j]? := by rw [show nextLevels s st.length = st from h]
  simp only [nextLevels, List.getElem?_map, List.getElem?_range hj, Option.map_some, List.getElem?_eq_getElem hj,
    Option.some.injEq] at e
  exact e

theorem answers_high {s : State} {n : Nat} (h : answers s (List.replicate n true)) {j : Nat} (hj : j < n) :
    peerLevel s j = true := by
  rw [answers_at h (by simpa using hj)]; simp

theorem answers_ack {s : State} {k : Nat} (h : answers s (List.replicate k true ++ [false])) :
    (∀ j, j < k → peerLevel s j = true) ∧ peerLevel s k = false := by
  constructor
  · intro j hj
    rw [answers_at h (by simp; omega), List.getElem_append_left (by simpa using hj)]; simp
  · rw [answers_at h (by simp)]; simp

/-! ### Checked sends -/

theorem sendChecked_ack {k : Nat} {b : Byte} {s : State} (hk : k ≤ s.params.ackPollMax - 1)
    (hi : ∀ j, j < k → peerLevel s j = true) (lo : peerLevel s k = false) :
    sendChecked b s = .go { s with
      lines := ⟨some false, some .input, some true⟩
      trace := s.trace ++ (sendByteEvents s.params b ++ ackEvents s.params k)
      peer := drawSkip (k + 1) s.peer } := by
  have same : ∀ j, peerLevel (sendByteSeq b s) j = peerLevel s j := fun j => peerLevel_congr (by rw [sendByteSeq_eq]) j
  rw [sendChecked, waitAckSeq_ack (s := sendByteSeq b s) (k := k) (by rw [sendByteSeq_eq]; exact hk)
    (fun j hj => by rw [same]; exact hi j hj) (by rw [same]; exact lo), sendByteSeq_eq]
  simp

theorem sendChecked_nack {b : Byte} {s : State} (hi : ∀ j, j ≤ s.params.ackPollMax - 1 → peerLevel s j = true) :
    sendChecked b s = .abort { s with
      result := .nack
      lines := Lines.idle
      trace := s.trace ++ (sendByteEvents s.params b ++ nackEvents s.params)
      peer := drawSkip (s.params.ackPollMax - 1 + 1) s.peer } := by
  have same : ∀ j, peerLevel (sendByteSeq b s) j = peerLevel s j := fun j => peerLevel_congr (by rw [sendByteSeq_eq]) j
  rw [sendChecked, waitAckSeq_nack (s := sendByteSeq b s)
    (fun j hj => by rw [same]; exact hi j (by rwa [sendByteSeq_eq] at hj)), sendByteSeq_eq]
  simp [complete]

/-- A list of bytes, each acknowledged at the sample `acks` names. -/
theorem sendAll_acked {bs : List Byte} {acks : List Nat} {s : State} (hlen : acks.length = bs.length)
    (hk : ∀ k ∈ acks, k < s.params.ackPollMax)
    (ha : answers s (acks.flatMap (fun k => List.replicate k true ++ [false]))) :
    sendAll bs s = .go { s with
      lines := if bs = [] then s.lines else ⟨some false, some .input, some true⟩
      trace := s.trace ++
        (List.zipWith (fun b k => sendByteEvents s.params b ++ ackEvents s.params k) bs acks).flatten
      peer := drawSkip (acks.flatMap (fun k => List.replicate k true ++ [false])).length s.peer } := by
  induction bs generalizing acks s with
  | nil =>
    obtain rfl : acks = [] := List.length_eq_zero_iff.1 (by simpa using hlen)
    simp [sendAll]
  | cons b bs ih =>
    rcases acks with _ | ⟨k, acks⟩
    · simp at hlen
    have hk0 : k < s.params.ackPollMax := hk k List.mem_cons_self
    rw [List.flatMap_cons] at ha
    obtain ⟨t, ht⟩ : ∃ t : State, t = { s with
      lines := ⟨some false, some .input, some true⟩
      trace := s.trace ++ (sendByteEvents s.params b ++ ackEvents s.params k)
      peer := drawSkip (k + 1) s.peer } := ⟨_, rfl⟩
    have ha' := (answers_append (t := t) (by simp [ht])).1 ha
    obtain ⟨hi, lo⟩ := answers_ack ha'.1
    have hp : t.params = s.params := by rw [ht]
    rw [sendAll, sendChecked_ack (k := k) (by omega) hi lo, ← ht, Flow.andThen,
      ih (s := t) (by simpa using hlen) (fun n hn => by rw [hp]; exact hk n (List.mem_cons_of_mem _ hn)) ha'.2, ht]
    simp [Nat.add_assoc]
    congr 1; omega

/-- A list of bytes of which the one after `sent` is the first not acknowledged. -/
theorem sendAll_nacked {sent rest : List Byte} {b : Byte} {acks : List Nat} {s : State} (hlen : acks.length = sent.length)
    (hk : ∀ k ∈ acks, k < s.params.ackPollMax) (h1 : 1 ≤ s.params.ackPollMax)
    (ha : answers s (acks.flatMap (fun k => List.replicate k true ++ [false]) ++ List.replicate s.params.ackPollMax true)) :
    sendAll (sent ++ b :: rest) s = .abort { s with
      result := .nack
      lines := Lines.idle
      trace := s.trace ++
        ((List.zipWith (fun b k => sendByteEvents s.params b ++ ackEvents s.params k) sent acks).flatten ++
          (sendByteEvents s.params b ++ nackEvents s.params))
      peer := drawSkip ((acks.flatMap (fun k => List.replicate k true ++ [false])).length + s.params.ackPollMax) s.peer } := by
  induction sent generalizing acks s with
  | nil =>
    obtain rfl : acks = [] := List.length_eq_zero_iff.1 (by simpa using hlen)
    simp only [List.flatMap_nil, List.nil_append] at ha
    rw [List.nil_append, sendAll, sendChecked_nack (fun j hj => answers_high ha (by omega)), Flow.andThen]
    have : s.params.ackPollMax - 1 + 1 = s.params.ackPollMax := by omega
    simp [this]
  | cons c sent ih =>
    rcases acks with _ | ⟨k, acks⟩
    · simp at hlen
    have hk0 : k < s.params.ackPollMax := hk k List.mem_cons_self
    rw [List.flatMap_cons, List.append_assoc] at ha
    obtain ⟨t, ht⟩ : ∃ t : State, t = { s with
      lines := ⟨some false, some .input, some true⟩
      trace := s.trace ++ (sendByteEvents s.params c ++ ackEvents s.params k)
      peer := drawSkip (k + 1) s.peer } := ⟨_, rfl⟩
    have ha' := (answers_append (t := t) (by simp [ht])).1 ha
    obtain ⟨hi, lo⟩ := answers_ack ha'.1
    have hp : t.params = s.params := by rw [ht]
    rw [List.cons_append, sendAll, sendChecked_ack (k := k) (by omega) hi lo, ← ht, Flow.andThen,
      ih (s := t) (by simpa using hlen) (fun n hn => by rw [hp]; exact hk n (List.mem_cons_of_mem _ hn))
        (by rw [hp]; exact h1) (by rw [hp]; exact ha'.2), ht]
    simp [Nat.add_assoc]
    congr 1; omega

@[simp] theorem andThen_assoc (x : Flow) (f g : State → Flow) :
    (x.andThen f).andThen g = x.andThen (fun t => (f t).andThen g) := by
  cases x <;> rfl

@[simp] theorem andThen_go (s : State) (f : State → Flow) : (Flow.go s).andThen f = f s := rfl
@[simp] theorem andThen_abort (s : State) (f : State → Flow) : (Flow.abort s).andThen f = .abort s := rfl
@[simp] theorem andThen_stuck (e : Fault) (f : State → Flow) : (Flow.stuck e).andThen f = .stuck e := rfl

theorem sendAll_append (bs cs : List Byte) (s : State) :
    sendAll (bs ++ cs) s = (sendAll bs s).andThen (fun t => sendAll cs t) := by
  induction bs generalizing s with
  | nil => rfl
  | cons b bs ih =>
    rw [List.cons_append, sendAll, sendAll, andThen_assoc]
    congr 1
    funext t
    exact ih t

/-! ### What a run of events leaves -/

/-- `t` is `s` after the events `es`: the lines and the trace are what the events make them, and nothing but those, the peer's
answers, DATA, RESULT and RXDATA can differ. -/
def Ran (s : State) (es : List Event) (t : State) : Prop :=
  t = { s with
    lines := linesAfterAll es s.lines
    trace := s.trace ++ es
    peer := t.peer
    data := t.data
    result := t.result
    rx := t.rx }

theorem ran_frame {s t : State} {es : List Event} (h : Ran s es t) :
    t.params = s.params ∧ t.len = s.len ∧ t.lc = s.lc ∧ t.faults = s.faults ∧ t.host = s.host ∧ t.answer = s.answer ∧
      t.lineControl = s.lineControl := by
  rw [h]; simp

theorem ran_lines {s t : State} {es : List Event} (h : Ran s es t) : t.lines = linesAfterAll es s.lines := by rw [h]

theorem ran_trace {s t : State} {es : List Event} (h : Ran s es t) : t.trace = s.trace ++ es := by rw [h]

theorem ran_trans {s t u : State} {es fs : List Event} (h : Ran s es t) (k : Ran t fs u) : Ran s (es ++ fs) u := by
  rw [Ran, k]
  rw [h]
  simp [linesAfterAll_append]

theorem ran_start (s : State) : Ran s (startEvents s.params) (startSeq s) := by
  rw [startSeq_eq]; simp [Ran]

theorem ran_stop (s : State) : Ran s (stopEvents s.params) (stopSeq s) := by
  rw [stopSeq_eq]; simp [Ran]

theorem ran_complete {s t : State} {es : List Event} (c : Result) (h : Ran s es t) : Ran s es (complete c t) := by
  rw [Ran, complete]; rw [h]

/-- What a run of checked sends can do: go on (no sample outside an input, no condition on the wire while SCL was low), complete
with NACK (the abort edge of R241, the bus idle), or meet a cell with no value. DATA and RXDATA are unchanged. -/
def Flow.Went (s : State) : Flow → Prop
  | .go t => ∃ es, Ran s es t ∧ t.data = s.data ∧ t.rx = s.rx ∧ t.result = s.result ∧ samplesAreInputs s.lines es = true ∧
      (s.lines.sclOut = some false → t.lines.sclOut = some false ∧ conditions s.lines es = [])
  | .abort t => ∃ es, Ran s es t ∧ t.data = s.data ∧ t.rx = s.rx ∧ t.result = .nack ∧ samplesAreInputs s.lines es = true ∧
      t.lines = Lines.idle ∧ (s.lines.sclOut = some false → conditions s.lines es = [.start, .stop])
  | .stuck f => ∃ j t, f = .unwritten j t ∧ memRead j s = none

theorem went_go (s : State) : (Flow.go s).Went s :=
  ⟨[], by simp [Ran], rfl, rfl, rfl, rfl, fun h => ⟨h, rfl⟩⟩

theorem went_andThen {s : State} {x : Flow} {f : State → Flow} (hx : x.Went s)
    (hf : ∀ t, t.data = s.data → (f t).Went t) : (x.andThen f).Went s := by
  rcases x with t | t | e
  · obtain ⟨es, hr, hd, hrx, hres, hs, hc⟩ := hx
    have hft := hf t hd
    rw [andThen_go]
    generalize f t = y at hft
    rcases y with u | u | e
    · obtain ⟨fs, kr, kd, krx, kres, ks, kc⟩ := hft
      refine ⟨es ++ fs, ran_trans hr kr, kd.trans hd, krx.trans hrx, kres.trans hres, ?_, fun low => ?_⟩
      · rw [samplesAreInputs_append, hs, ← ran_lines hr, ks]; rfl
      · obtain ⟨h1, h2⟩ := hc low
        obtain ⟨k1, k2⟩ := kc h1
        exact ⟨k1, by rw [conditions_append, h2, ← ran_lines hr, k2]; rfl⟩
    · obtain ⟨fs, kr, kd, krx, kres, ks, ki, kc⟩ := hft
      refine ⟨es ++ fs, ran_trans hr kr, kd.trans hd, krx.trans hrx, kres, ?_, ki, fun low => ?_⟩
      · rw [samplesAreInputs_append, hs, ← ran_lines hr, ks]; rfl
      · obtain ⟨h1, h2⟩ := hc low
        rw [conditions_append, h2, ← ran_lines hr, kc h1]; rfl
    · obtain ⟨j, u, he, hm⟩ := hft
      exact ⟨j, u, he, by rw [← hm, memRead, memRead, hd]⟩
  · exact hx
  · exact hx

theorem sendChecked_went (b : Byte) (s : State) : (sendChecked b s).Went s := by
  rcases firstLow_or_allHigh s (s.params.ackPollMax - 1) with ⟨k, hk, hi, lo⟩ | hi
  · rw [sendChecked_ack hk hi lo]
    refine ⟨sendByteEvents s.params b ++ ackEvents s.params k, ?_, rfl, rfl, rfl, ?_, fun low => ⟨rfl, ?_⟩⟩
    · simp [Ran, linesAfterAll_append]
    · simp [samplesAreInputs_append]
    · simp [conditions_append, conditions_sendByte_sclLow _ _ low]
  · rw [sendChecked_nack hi]
    refine ⟨sendByteEvents s.params b ++ nackEvents s.params, ?_, rfl, rfl, rfl, ?_, rfl, fun low => ?_⟩
    · simp [Ran, linesAfterAll_append]
    · simp [samplesAreInputs_append]
    · simp [conditions_append, conditions_sendByte_sclLow _ _ low]

theorem sendAll_went (bs : List Byte) (s : State) : (sendAll bs s).Went s := by
  induction bs generalizing s with
  | nil => exact went_go s
  | cons b bs ih => exact went_andThen (sendChecked_went b s) fun t _ => ih t

theorem sendData_went (n j : Nat) (s : State) : (sendData n j s).Went s := by
  induction n generalizing j s with
  | zero => exact went_go s
  | succ n ih =>
    rw [sendData]
    cases h : memRead j s with
    | none => exact ⟨j, _, rfl, h⟩
    | some b => exact went_andThen (sendChecked_went b s) fun t _ => ih (j + 1) t

/-- A checked send that goes on leaves DATA as it was. -/
theorem sendChecked_data {b : Byte} {s t : State} (h : sendChecked b s = .go t) : t.data = s.data := by
  have w := sendChecked_went b s
  rw [h] at w
  exact w.choose_spec.2.1

/-- The write data phase over cells that hold `d` is the checked sends of `d`, then the rest of the phase. -/
theorem sendData_eq_sendAll (d : List Byte) (n j : Nat) (s : State)
    (h : ∀ i (hi : i < d.length), memRead (j + i) s = some d[i]) :
    sendData (d.length + n) j s = (sendAll d s).andThen (fun t => sendData n (j + d.length) t) := by
  induction d generalizing j s with
  | nil => simp [sendAll]
  | cons b d ih =>
    have h0 : memRead j s = some b := h 0 (by simp)
    rw [show (b :: d).length + n = (d.length + n) + 1 by simp; omega, sendData, h0, sendAll, andThen_assoc]
    show (sendChecked b s).andThen _ = (sendChecked b s).andThen _
    cases hc : sendChecked b s with
    | go t =>
      have hd : ∀ k, memRead k t = memRead k s := fun k => by rw [memRead, memRead, sendChecked_data hc]
      rw [andThen_go, andThen_go, ih (j + 1) t (fun i hi => by
        rw [hd, show j + 1 + i = j + (i + 1) by omega]; exact h (i + 1) (by simpa using hi))]
      rw [show j + 1 + d.length = j + (b :: d).length by simp; omega]
    | abort t => rfl
    | stuck f => rfl

/-! ### The read data phase -/

theorem ran_readByte (ackf : Bool) (s : State) :
    Ran s (readEvents s.params (nextLevels s 8) ackf) (readByteSeq ackf s).2 := by
  rw [readByteSeq_eq]; simp [Ran]

theorem ran_memWrite {s t : State} {es : List Event} (j : Nat) (v : Byte) (h : Ran s es t) : Ran s es (memWrite j v t) := by
  rw [Ran, memWrite]; rw [h]

/-- What the read data phase does: only cells j to j + n - 1 change, RESULT and RXDATA do not, no condition shows on the wire, and
SCL stays low between the bytes. -/
theorem receive_ran (n j : Nat) (s : State) :
    ∃ es, Ran s es (receive n j s) ∧ (receive n j s).result = s.result ∧ (receive n j s).rx = s.rx ∧
      samplesAreInputs s.lines es = true ∧ conditions s.lines es = [] ∧
      (s.lines.sclOut = some false → (receive n j s).lines.sclOut = some false) ∧
      (∀ a, j + n ≤ a → memRead a (receive n j s) = memRead a s) ∧
      (Memory.wf s.data = true → Memory.wf (receive n j s).data = true) ∧
      (∀ c ∈ (receive n j s).data, c ∈ s.data ∨ c.1 < j + n) := by
  induction n generalizing j s with
  | zero => exact ⟨[], by simp [Ran, receive], rfl, rfl, rfl, rfl, id, fun _ _ => rfl, id, fun c h => .inl h⟩
  | succ n ih =>
    rw [receive]
    have hr := ran_memWrite j (readByteSeq (n != 0) s).1 (ran_readByte (n != 0) s)
    have hd : (readByteSeq (n != 0) s).2.data = s.data := by rw [readByteSeq_eq]
    have hres : (readByteSeq (n != 0) s).2.result = s.result := by rw [readByteSeq_eq]
    have hrx : (readByteSeq (n != 0) s).2.rx = s.rx := by rw [readByteSeq_eq]
    generalize hv : (readByteSeq (n != 0) s).1 = v at hr
    generalize hu : memWrite j v (readByteSeq (n != 0) s).2 = u at hr
    have hud : u.data = setCell j v s.data := by rw [← hu]; simp [hd]
    obtain ⟨fs, kr, kres, krx, ks, kc, kl, km, kw, kb⟩ := ih (j + 1) u
    refine ⟨_, ran_trans hr kr, ?_, ?_, ?_, ?_, fun _ => kl ?_, fun a ha => ?_, fun hw => kw ?_, fun c hc => ?_⟩
    · rw [kres, ← hu]; exact hres
    · rw [krx, ← hu]; exact hrx
    · rw [samplesAreInputs_append, samplesAreInputs_read, ← ran_lines hr, ks]; rfl
    · rw [conditions_append, conditions_read, ← ran_lines hr, kc]; rfl
    · rw [ran_lines hr]; simp
    · rw [km a (by omega), memRead, hud, cellAt_setCell_other v s.data (by omega), memRead]
    · rw [hud]; exact memory_wf_setCell j v hw
    · rcases kb c hc with h | h
      · rw [hud] at h
        rcases mem_setCell h with h | h
        · exact .inr (by rw [h]; simp only; omega)
        · exact .inl h
      · exact .inr (by omega)

/-- DATA with the bytes of a list from cell `j` on. -/
def storeAll : Nat → List Byte → List Host.Cell → List Host.Cell
  | _, [], m => m
  | j, b :: bs, m => storeAll (j + 1) bs (setCell j b m)

theorem cellAt_storeAll_outside {ds : List Byte} {j k : Nat} {m : List Host.Cell} (h : k < j ∨ j + ds.length ≤ k) :
    cellAt (storeAll j ds m) k = cellAt m k := by
  induction ds generalizing j m with
  | nil => rfl
  | cons b ds ih =>
    rw [List.length_cons] at h
    rw [storeAll, ih (by omega), cellAt_setCell_other _ _ (by omega)]

theorem cellAt_storeAll_inside {ds : List Byte} {j k : Nat} {m : List Host.Cell} (h : k < ds.length) :
    cellAt (storeAll j ds m) (j + k) = some ds[k] := by
  induction ds generalizing j m k with
  | nil => exact absurd h (Nat.not_lt_zero k)
  | cons b ds ih =>
    rw [storeAll]
    cases k with
    | zero => rw [cellAt_storeAll_outside (by omega)]; simp [cellAt_setCell_same]
    | succ k => rw [show j + (k + 1) = j + 1 + k by omega, ih (by simpa using h)]; rfl

/-- The events of the read data phase over bytes `ds`: every byte acknowledged but the last (R143). -/
def receiveEvents (p : Params) : List Byte → List Event
  | [] => []
  | b :: bs => readEvents p (bitsMsbFirst b) (!bs.isEmpty) ++ receiveEvents p bs

/-- The read data phase over a peer that gives the bytes `ds`: they go to the cells from `j` on. -/
theorem receive_stored {ds : List Byte} {j : Nat} {s : State} (ha : answers s (ds.flatMap bitsMsbFirst)) :
    ∃ l, (ds = [] → l = s.lines) ∧ receive ds.length j s = { s with
      lines := l
      data := storeAll j ds s.data
      trace := s.trace ++ receiveEvents s.params ds
      peer := drawSkip (8 * ds.length) s.peer } := by
  induction ds generalizing j s with
  | nil => exact ⟨_, fun _ => rfl, by simp [receive, storeAll, receiveEvents]⟩
  | cons b ds ih =>
    rw [List.flatMap_cons] at ha
    obtain ⟨u, hu⟩ : ∃ u, u = memWrite j (readByteSeq (ds.length != 0) s).1 (readByteSeq (ds.length != 0) s).2 := ⟨_, rfl⟩
    have hup : u.peer = drawSkip (bitsMsbFirst b).length s.peer := by rw [hu, readByteSeq_eq]; rfl
    have ha2 := (answers_append hup).1 ha
    have hnl : nextLevels s 8 = bitsMsbFirst b := ha2.1
    rw [readByteSeq_eq, hnl, byteOf_bitsMsbFirst, memWrite] at hu
    obtain ⟨l, _, e⟩ := ih (j := j + 1) ha2.2
    refine ⟨l, fun h => by simp at h, ?_⟩
    have hack : (ds.length != 0) = !ds.isEmpty := by cases ds <;> simp
    rw [List.length_cons, receive, readByteSeq_eq, hnl, byteOf_bitsMsbFirst, memWrite, ← hu, e, hu]
    simp [storeAll, receiveEvents, hack]
    congr 1; omega

/-! ### WRITE_GEN and READ_GEN -/

/-- What a protocol command that passed its checks can answer as a next state. -/
structure Ended (n : Nat) (s t : State) (es : List Event) : Prop where
  ran : Ran s es t
  rx : t.rx = s.rx
  result : t.result = .ok ∨ t.result = .nack
  samples : samplesAreInputs s.lines es = true
  idle : t.lines = Lines.idle
  oneStop : s.lines.settled → (conditions s.lines es).count .stop = 1
  cells : ∀ a, n ≤ a → memRead a t = memRead a s
  failed : t.result ≠ .ok → t.data = s.data
  wf : Memory.wf s.data = true → Memory.wf t.data = true
  bound : ∀ c ∈ t.data, c ∈ s.data ∨ c.1 < n

theorem startSeq_sclLow (s : State) : (startSeq s).lines.sclOut = some false := by rw [startSeq_eq]

/-- After START, a run of sends that completed with NACK. -/
theorem ended_abort {n : Nat} {s t : State} (h : (Flow.abort t).Went (startSeq s)) : ∃ es, Ended n s t es := by
  obtain ⟨es, hr, hd, hrx, hres, hs, hi, hc⟩ := h
  have hd' : t.data = s.data := hd.trans (by rw [startSeq_eq])
  refine ⟨_, ran_trans (ran_start s) hr, hrx.trans (by rw [startSeq_eq]), .inr hres, ?_, hi, fun hset => ?_,
    fun a _ => by rw [memRead, hd', memRead], fun _ => hd', fun h => by rw [hd']; exact h, fun c hc => .inl (by rwa [← hd'])⟩
  · rw [samplesAreInputs_append, samplesAreInputs_start, ← ran_lines (ran_start s), hs]; rfl
  · rw [conditions_append, conditions_start _ hset, ← ran_lines (ran_start s), hc (startSeq_sclLow s)]; rfl

/-- After START, a run of sends that went on, then the closing STOP. -/
theorem ended_stop {n : Nat} {s t : State} (h : (Flow.go t).Went (startSeq s)) :
    ∃ es, Ended n s (complete .ok (stopSeq t)) es := by
  obtain ⟨es, hr, hd, hrx, hres, hs, hc⟩ := h
  have hd' : t.data = s.data := hd.trans (by rw [startSeq_eq])
  obtain ⟨hl, hcc⟩ := hc (startSeq_sclLow s)
  have hr' := ran_trans (ran_start s) (ran_trans hr (ran_complete .ok (ran_stop t)))
  have hcd : (complete .ok (stopSeq t)).data = s.data := by rw [← hd', stopSeq_eq]; rfl
  refine ⟨_, hr', ?_, .inl rfl, ?_, by rw [stopSeq_eq]; rfl, fun hset => ?_,
    fun a _ => by rw [memRead, hcd, memRead], fun _ => hcd, fun h => by rw [hcd]; exact h,
    fun c hc => .inl (by rwa [← hcd])⟩
  · rw [complete_rx, stopSeq_eq]; exact hrx.trans (by rw [startSeq_eq])
  · rw [samplesAreInputs_append, samplesAreInputs_start, ← ran_lines (ran_start s), samplesAreInputs_append, hs]
    simp
  · rw [conditions_append, conditions_start _ hset, ← ran_lines (ran_start s), conditions_append, hcc, ← ran_lines hr,
      conditions_stop_sclLow _ hl]
    rfl

theorem writeGen_ended {mode : RegMode} {addr : Byte} {g : Half} {n : Nat} {s t : State}
    (h : writeGen mode addr g n s = .next t) : ∃ es, Ended n s t es := by
  have w : ((sendAll (writeForm addr :: regBytes mode g) (startSeq s)).andThen (fun t => sendData n 0 t)).Went
      (startSeq s) := went_andThen (sendAll_went _ _) fun t _ => sendData_went n 0 t
  rw [writeGen] at h
  generalize (sendAll (writeForm addr :: regBytes mode g) (startSeq s)).andThen (fun t => sendData n 0 t) = x at h w
  rcases x with u | u | e
  · cases h; exact ended_stop w
  · cases h; exact ended_abort w
  · cases h

/-- A write command faults only on a cell of its own that holds no value. -/
theorem writeGen_fault {mode : RegMode} {addr : Byte} {g : Half} {n : Nat} {s : State} {f : Fault}
    (h : writeGen mode addr g n s = .fault f) : ∃ j t, f = .unwritten j t ∧ memRead j s = none := by
  have w : ((sendAll (writeForm addr :: regBytes mode g) (startSeq s)).andThen (fun t => sendData n 0 t)).Went
      (startSeq s) := went_andThen (sendAll_went _ _) fun t _ => sendData_went n 0 t
  rw [writeGen] at h
  generalize (sendAll (writeForm addr :: regBytes mode g) (startSeq s)).andThen (fun t => sendData n 0 t) = x at h w
  rcases x with u | u | e
  · cases h
  · cases h
  · cases h
    obtain ⟨j, t, he, hm⟩ := w
    exact ⟨j, t, he, by rw [← hm, memRead, memRead, startSeq_eq]⟩

theorem writeGen_not_refused {mode : RegMode} {addr : Byte} {g : Half} {n : Nat} {s : State} {r : Refusal} :
    writeGen mode addr g n s ≠ .refused r := by
  rw [writeGen]
  generalize (sendAll (writeForm addr :: regBytes mode g) (startSeq s)).andThen (fun t => sendData n 0 t) = x
  rcases x with u | u | e <;> intro h <;> cases h

/-- READ_GEN up to the last check: with a register phase its repeated START makes one more START condition. -/
theorem readOpening_cases (mode : RegMode) (addr : Byte) (g : Half) (s : State) :
    (∃ t, readOpening mode addr g s = .go t ∧ t.data = s.data ∧ t.rx = s.rx ∧ t.lines.sclOut = some false ∧
      ∃ es, Ran s es t ∧ samplesAreInputs s.lines es = true ∧
        (s.lines.settled → (conditions s.lines es).count .stop = 0)) ∨
    (∃ t, readOpening mode addr g s = .abort t ∧ (Flow.abort t).Went (startSeq s)) := by
  rw [readOpening]
  split
  · refine .inl ⟨_, rfl, by rw [startSeq_eq], by rw [startSeq_eq], startSeq_sclLow s, _, ran_start s, by simp, fun h => ?_⟩
    rw [conditions_start _ h]; rfl
  · have w := sendAll_went (writeForm addr :: regBytes mode g) (startSeq s)
    have fin : ∀ t j u, sendAll (writeForm addr :: regBytes mode g) t ≠ .stuck (.unwritten j u) := by
      intro t j u
      generalize writeForm addr :: regBytes mode g = bs
      induction bs generalizing t with
      | nil => intro h; cases h
      | cons b bs ih =>
        rw [sendAll]
        rcases firstLow_or_allHigh t (t.params.ackPollMax - 1) with ⟨k, hk, hi, lo⟩ | hi
        · rw [sendChecked_ack hk hi lo, andThen_go]; exact ih _
        · rw [sendChecked_nack hi]; intro h; cases h
    have fin' := fin (startSeq s)
    have settledIn : ∀ b bs t u, sendAll (b :: bs) t = .go u → u.lines = ⟨some false, some .input, some true⟩ := by
      intro b bs
      induction bs generalizing b with
      | nil =>
        intro t u h
        rw [sendAll] at h
        rcases firstLow_or_allHigh t (t.params.ackPollMax - 1) with ⟨k, hk, hi, lo⟩ | hi
        · rw [sendChecked_ack hk hi lo, andThen_go, sendAll] at h; cases h; rfl
        · rw [sendChecked_nack hi] at h; cases h
      | cons c bs ih =>
        intro t u h
        rw [sendAll] at h
        rcases firstLow_or_allHigh t (t.params.ackPollMax - 1) with ⟨k, hk, hi, lo⟩ | hi
        · rw [sendChecked_ack hk hi lo, andThen_go] at h; exact ih c _ u h
        · rw [sendChecked_nack hi] at h; cases h
    have settledIn' := settledIn (writeForm addr) (regBytes mode g) (startSeq s)
    generalize sendAll (writeForm addr :: regBytes mode g) (startSeq s) = x at w fin' settledIn'
    rcases x with u | u | ⟨j, v⟩
    · obtain ⟨es, hr, hd, hrx, hres, hs, hc⟩ := w
      have hset : u.lines.settled := .inr (.inr (.inr (settledIn' u rfl)))
      obtain ⟨hl, hcc⟩ := hc (startSeq_sclLow s)
      refine .inl ⟨_, rfl, ?_, ?_, startSeq_sclLow u, _, ran_trans (ran_start s) (ran_trans hr (ran_start u)), ?_, fun h => ?_⟩
      · rw [startSeq_eq]; exact hd.trans (by rw [startSeq_eq])
      · rw [startSeq_eq]; exact hrx.trans (by rw [startSeq_eq])
      · rw [samplesAreInputs_append, samplesAreInputs_start, ← ran_lines (ran_start s), samplesAreInputs_append, hs]
        simp
      · rw [conditions_append, conditions_start _ h, ← ran_lines (ran_start s), conditions_append, hcc, ← ran_lines hr,
          conditions_start _ hset]
        rfl
    · exact .inr ⟨u, rfl, w⟩
    · exact absurd rfl (fin' j v)

theorem readGen_ended {mode : RegMode} {addr : Byte} {g : Half} {n : Nat} {s : State} :
    ∃ t es, readGen mode addr g n s = .next t ∧ Ended n s t es := by
  rw [readGen]
  rcases readOpening_cases mode addr g s with ⟨t, e, hd, hrx, hl, es, hr, hs, hc⟩ | ⟨t, e, w⟩
  · rw [e, andThen_go]
    have w := sendChecked_went (readForm addr) t
    have nostuck : ∀ f, sendChecked (readForm addr) t ≠ .stuck f := by
      intro f
      rcases firstLow_or_allHigh t (t.params.ackPollMax - 1) with ⟨k, hk, hi, lo⟩ | hi
      · rw [sendChecked_ack hk hi lo]; intro h; cases h
      · rw [sendChecked_nack hi]; intro h; cases h
    generalize sendChecked (readForm addr) t = x at w nostuck
    rcases x with u | u | f
    · obtain ⟨fs, kr, kd, krx, kres, ks, kc⟩ := w
      obtain ⟨kl, kcc⟩ := kc hl
      obtain ⟨gs, lr, lres, lrx, ls, lc, ll, lm, lw, lb⟩ := receive_ran n 0 u
      have hud : u.data = s.data := kd.trans hd
      have hvd : (complete .ok (stopSeq (receive n 0 u))).data = (receive n 0 u).data := by rw [stopSeq_eq]; rfl
      refine ⟨_, _, rfl, ran_trans hr (ran_trans kr (ran_trans lr (ran_complete .ok (ran_stop _)))), ?_, .inl rfl, ?_,
        by rw [stopSeq_eq]; rfl, fun hset => ?_, fun a ha => ?_, fun h => absurd rfl h, fun h => ?_, fun c hc => ?_⟩
      · rw [complete_rx, stopSeq_eq]; exact lrx.trans (krx.trans hrx)
      · rw [samplesAreInputs_append, hs, ← ran_lines hr, samplesAreInputs_append, ks, ← ran_lines kr,
          samplesAreInputs_append, ls]
        simp
      · rw [conditions_append, ← ran_lines hr, conditions_append, kcc, ← ran_lines kr, conditions_append, lc,
          ← ran_lines lr, conditions_stop_sclLow _ (ll kl), List.count_append, hc hset]
        rfl
      · rw [memRead, hvd, ← memRead, lm a (by omega), memRead, hud, memRead]
      · rw [hvd]; exact lw (by rw [hud]; exact h)
      · rw [hvd] at hc
        rcases lb c hc with h | h
        · exact .inl (by rwa [← hud])
        · exact .inr (by omega)
    · obtain ⟨fs, kr, kd, krx, kres, ks, ki, kc⟩ := w
      have hud : u.data = s.data := kd.trans hd
      refine ⟨_, _, rfl, ran_trans hr kr, krx.trans hrx, .inr kres, ?_, ki, fun hset => ?_,
        fun a _ => by rw [memRead, hud, memRead], fun _ => hud, fun h => by rw [hud]; exact h,
        fun c hc => .inl (by rwa [← hud])⟩
      · rw [samplesAreInputs_append, hs, ← ran_lines hr, ks]; rfl
      · rw [conditions_append, ← ran_lines hr, kc hl, List.count_append, hc hset]; rfl
    · exact absurd rfl (nostuck f)
  · rw [e]
    obtain ⟨es, he⟩ := ended_abort (n := n) w
    exact ⟨t, es, rfl, he⟩

end Sys2Proof.Machine
end

