-- ==== Sys2Proof/Laws/Exec.lean ====
section
/-! SUPPORT. The issue checks and each command's meaning, said once: what exec answers when a check ends the command, and what it
answers when the command runs. -/

namespace Sys2Proof.Machine

theorem whenReady_ready {run : State → Out} {s : State} (h : s.lc = .ready) : whenReady run s = run s := by
  rw [whenReady, h]

theorem whenReady_unconfigured {run : State → Out} {s : State} (h : s.lc = .unconfigured) :
    whenReady run s = .next (notReadyIssue s) := by
  rw [whenReady, h]

theorem whenLengthFits_fits {run : Nat → State → Out} {s : State} (h : s.lc = .ready)
    (hn : s.len.toNat ≤ s.params.bufBytes) : whenLengthFits run s = run s.len.toNat s := by
  rw [whenLengthFits, whenReady_ready h, latchedLength, if_neg (by omega)]

theorem whenLengthFits_over {run : Nat → State → Out} {s : State} (h : s.lc = .ready)
    (hn : s.params.bufBytes < s.len.toNat) : whenLengthFits run s = .next (illegalIssue s) := by
  rw [whenLengthFits, whenReady_ready h, latchedLength, if_pos hn]

/-- The run of a protocol command that passed its checks: WRITE_GEN or READ_GEN with its operands. -/
theorem exec_protocol {i : Instr} {s : State} (hp : i.isProtocol = true) (h : s.lc = .ready)
    (hn : s.len.toNat ≤ s.params.bufBytes) :
    (i.isProtocolRead = false ∧ ∃ mode addr g, exec i s = writeGen mode addr g s.len.toNat s) ∨
      (i.isProtocolRead = true ∧ ∃ mode addr g, exec i s = readGen mode addr g s.len.toNat s) := by
  cases i <;> simp only [Instr.isProtocol, Bool.false_eq_true] at hp
  case writeCommand a => exact .inl ⟨rfl, _, _, _, whenLengthFits_fits h hn⟩
  case write a r => exact .inl ⟨rfl, _, _, _, whenLengthFits_fits h hn⟩
  case writeAddress16 a r => exact .inl ⟨rfl, _, _, _, whenLengthFits_fits h hn⟩
  case read a r => exact .inr ⟨rfl, _, _, _, whenLengthFits_fits h hn⟩
  case readAddress16 a r => exact .inr ⟨rfl, _, _, _, whenLengthFits_fits h hn⟩
  case readCommand a => exact .inr ⟨rfl, _, _, _, whenLengthFits_fits h hn⟩

/-- What a protocol command that passed its checks leaves as a next state. -/
theorem exec_protocol_ended {i : Instr} {s t : State} (hp : i.isProtocol = true) (h : s.lc = .ready)
    (hn : s.len.toNat ≤ s.params.bufBytes) (hx : exec i s = .next t) :
    ∃ es, Ended s.len.toNat s t es ∧ (i.isProtocolRead = false → t.data = s.data) := by
  rcases exec_protocol hp h hn with ⟨hr, mode, addr, g, e⟩ | ⟨hr, mode, addr, g, e⟩
  · rw [e] at hx
    have w : ((sendAll (writeForm addr :: regBytes mode g) (startSeq s)).andThen
        (fun t => sendData s.len.toNat 0 t)).Went (startSeq s) :=
      went_andThen (sendAll_went _ _) fun t _ => sendData_went s.len.toNat 0 t
    obtain ⟨es, he⟩ := writeGen_ended hx
    refine ⟨es, he, fun _ => ?_⟩
    rw [writeGen] at hx
    generalize (sendAll (writeForm addr :: regBytes mode g) (startSeq s)).andThen (fun t => sendData s.len.toNat 0 t) = x
      at hx w
    rcases x with u | u | f
    · cases hx
      rw [complete_data, stopSeq_eq]
      exact w.choose_spec.2.1.trans (by rw [startSeq_eq])
    · cases hx
      exact w.choose_spec.2.1.trans (by rw [startSeq_eq])
    · cases hx
  · obtain ⟨u, es, hu, he⟩ := readGen_ended (mode := mode) (addr := addr) (g := g) (n := s.len.toNat) (s := s)
    rw [e, hu] at hx
    cases hx
    exact ⟨es, he, fun h' => by rw [hr] at h'; cases h'⟩

/-- What exec answers while LC = UNCONFIGURED (R185). -/
theorem exec_unconfigured {i : Instr} {s : State} (hi : i ≠ .init) (h : s.lc = .unconfigured) :
    exec i s = .next (notReadyIssue s) := by
  cases i <;>
    simp only [exec, execDeinit, execStart, execStop, execSendByte, execWaitAck, execReadByte, execWriteCommand, execWrite,
      execWriteAddress16, execRead, execReadAddress16, execReadCommand, whenLengthFits, whenReady_unconfigured h]
  exact absurd rfl hi

/-- What exec answers to a protocol command whose length is out of range (R203, check 3). -/
theorem exec_length_over {i : Instr} {s : State} (hp : i.isProtocol = true) (h : s.lc = .ready)
    (hn : s.params.bufBytes < s.len.toNat) : exec i s = .next (illegalIssue s) := by
  cases i <;> simp only [Instr.isProtocol, Bool.false_eq_true] at hp <;> exact whenLengthFits_over h hn

/-! ### INIT and DEINIT -/

theorem configureAnswer_ok {s : State} (h : lineControlDraw s 0 = true) :
    configureAnswer s = .ok (lineControlDraw s 1) (lineControlDraw s 2) := by
  rw [configureAnswer, if_pos h]

theorem configureAnswer_fail {s : State} (h : lineControlDraw s 0 = false) : configureAnswer s = .fail := by
  rw [configureAnswer, h]; rfl

theorem initSeq_ok {s : State} (h : lineControlDraw s 0 = true) :
    initSeq s = { s with
      result := .ok
      lc := .ready
      lines := Lines.idle
      trace := s.trace ++ [.configure (.ok (lineControlDraw s 1) (lineControlDraw s 2)), .scl true, .sda true]
      lineControl := drawSkip 3 s.lineControl } := by
  simp [initSeq, afterConfigure, configureAnswer_ok h, Configured.draws, emitAll_eq, complete, linesAfter, emit, Lines.idle]

theorem initSeq_fail {s : State} (h : lineControlDraw s 0 = false) :
    initSeq s = { s with
      result := .configFail
      lc := .unconfigured
      lines := Lines.unspecified
      trace := s.trace ++ [.configure .fail]
      lineControl := drawSkip 1 s.lineControl } := by
  simp [initSeq, afterConfigure, configureAnswer_fail h, Configured.draws, complete, emit]

theorem deinitSeq_eq (s : State) :
    deinitSeq s = { s with
      result := if lineControlDraw s 0 then .ok else .configFail
      lc := .unconfigured
      lines := Lines.unspecified
      trace := s.trace ++ [.release (lineControlDraw s 0)]
      lineControl := drawSkip 1 s.lineControl } := by
  simp [deinitSeq, afterRelease, complete, emit]

/-! ### The commands that are no protocol commands, once LC = READY -/

theorem exec_deinit {s : State} (h : s.lc = .ready) : exec .deinit s = .next (deinitSeq s) := by
  rw [exec, execDeinit, whenReady_ready h]

theorem exec_start {s : State} (h : s.lc = .ready) : exec .start s = .next (complete .ok (startSeq s)) := by
  rw [exec, execStart, whenReady_ready h]

theorem exec_stop {s : State} (h : s.lc = .ready) : exec .stop s = .next (complete .ok (stopSeq s)) := by
  rw [exec, execStop, whenReady_ready h]

theorem exec_sendByte {b : Byte} {s : State} (h : s.lc = .ready) :
    exec (.sendByte b) s = .next (complete .ok (sendByteSeq b s)) := by
  rw [exec, execSendByte, whenReady_ready h]

theorem exec_waitAck {s : State} (h : s.lc = .ready) :
    exec .waitAck s = .next (complete (ackResult (waitAckSeq s).1) (waitAckSeq s).2) := by
  rw [exec, execWaitAck, whenReady_ready h]

theorem exec_readByte {f : Bool} {s : State} (h : s.lc = .ready) :
    exec (.readByte f) s = .next (complete .ok { (readByteSeq f s).2 with rx := (readByteSeq f s).1 }) := by
  rw [exec, execReadByte, whenReady_ready h]

/-! ### The cases of exec -/

/-- Every way exec answers a next state, once for all commands. -/
inductive Answered (i : Instr) (s t : State) : Prop where
  /-- Issue check 2. -/
  | notReady (hi : i ≠ .init) (h : s.lc = .unconfigured) (ht : t = notReadyIssue s)
  /-- Issue check 3. -/
  | length (hp : i.isProtocol = true) (h : s.lc = .ready) (hn : s.params.bufBytes < s.len.toNat) (ht : t = illegalIssue s)
  | init (hi : i = .init) (ht : t = initSeq s)
  | deinit (hi : i = .deinit) (h : s.lc = .ready) (ht : t = deinitSeq s)
  | start (hi : i = .start) (h : s.lc = .ready) (ht : t = complete .ok (startSeq s))
  | stop (hi : i = .stop) (h : s.lc = .ready) (ht : t = complete .ok (stopSeq s))
  | sendByte (b : Byte) (hi : i = .sendByte b) (h : s.lc = .ready) (ht : t = complete .ok (sendByteSeq b s))
  | waitAck (hi : i = .waitAck) (h : s.lc = .ready)
      (ht : t = complete (ackResult (waitAckSeq s).1) (waitAckSeq s).2)
  | readByte (f : Bool) (hi : i = .readByte f) (h : s.lc = .ready)
      (ht : t = complete .ok { (readByteSeq f s).2 with rx := (readByteSeq f s).1 })
  | protocol (hp : i.isProtocol = true) (h : s.lc = .ready) (hn : s.len.toNat ≤ s.params.bufBytes) (es : List Event)
      (he : Ended s.len.toNat s t es) (hd : i.isProtocolRead = false → t.data = s.data)

theorem exec_answered {i : Instr} {s t : State} (hx : exec i s = .next t) : Answered i s t := by
  by_cases hi : i = .init
  · subst hi
    exact .init rfl (by cases hx; rfl)
  cases h : s.lc with
  | unconfigured =>
    rw [exec_unconfigured hi h] at hx
    exact .notReady hi h (by cases hx; rfl)
  | ready =>
    by_cases hp : i.isProtocol = true
    · rcases Nat.lt_or_ge s.params.bufBytes s.len.toNat with hn | hn
      · rw [exec_length_over hp h hn] at hx
        exact .length hp h hn (by cases hx; rfl)
      · obtain ⟨es, he, hd⟩ := exec_protocol_ended hp h hn hx
        exact .protocol hp h hn es he hd
    · cases i <;> simp only [Instr.isProtocol, not_true_eq_false] at hp
      case init => exact absurd rfl hi
      case deinit =>
        rw [exec_deinit h] at hx
        exact .deinit rfl h (by cases hx; rfl)
      case start =>
        rw [exec_start h] at hx
        exact .start rfl h (by cases hx; rfl)
      case stop =>
        rw [exec_stop h] at hx
        exact .stop rfl h (by cases hx; rfl)
      case sendByte b =>
        rw [exec_sendByte h] at hx
        exact .sendByte b rfl h (by cases hx; rfl)
      case waitAck =>
        rw [exec_waitAck h] at hx
        exact .waitAck rfl h (by cases hx; rfl)
      case readByte f =>
        rw [exec_readByte h] at hx
        exact .readByte f rfl h (by cases hx; rfl)

/-- WAIT_ACK as a command: the two ways it ends. -/
theorem waitAckSeq_cases (s : State) :
    (∃ k, k ≤ s.params.ackPollMax - 1 ∧ (∀ j, j < k → peerLevel s j = true) ∧ peerLevel s k = false ∧
      waitAckSeq s = (.ack, { s with
        lines := ⟨some false, some .input, some true⟩
        trace := s.trace ++ ackEvents s.params k
        peer := drawSkip (k + 1) s.peer })) ∨
    ((∀ j, j ≤ s.params.ackPollMax - 1 → peerLevel s j = true) ∧
      waitAckSeq s = (.nack, { s with
        lines := Lines.idle
        trace := s.trace ++ nackEvents s.params
        peer := drawSkip (s.params.ackPollMax - 1 + 1) s.peer })) := by
  rcases firstLow_or_allHigh s (s.params.ackPollMax - 1) with ⟨k, hk, hi, lo⟩ | hi
  · exact .inl ⟨k, hk, hi, lo, waitAckSeq_ack hk hi lo⟩
  · exact .inr ⟨hi, waitAckSeq_nack hi⟩

end Sys2Proof.Machine
end

