-- ==== Sys2Proof/Laws/PerInstr.lean ====
section
/-! SUPPORT. A statement about every command as syntax, one lemma per constructor: its word lies in its mnemonic's row of R75. -/

namespace Sys2Proof.Laws.EncodesInItsRow

/-- The word of a command matches its row of R75. -/
def Statement (i : Instr) : Prop := i.mnemonic.rowHits (encode i) = true

theorem init : Statement .init := by unfold Statement; decide
theorem deinit : Statement .deinit := by unfold Statement; decide
theorem start : Statement .start := by unfold Statement; decide
theorem stop : Statement .stop := by unfold Statement; decide
theorem waitAck : Statement .waitAck := by unfold Statement; decide

theorem readByte (ackf : Bool) : Statement (.readByte ackf) := by unfold Statement; cases ackf <;> decide

/-- A word agrees with a match value under a mask when each of its bits does. -/
theorem rowHits_of_bits {m : Mnemonic} {w : Word}
    (h : ∀ k, k < 32 → (w.getLsbD k && m.maskBits.getLsbD k) = m.matchBits.getLsbD k) : m.rowHits w = true := by
  rw [Mnemonic.rowHits, beq_iff_eq]
  apply BitVec.eq_of_getLsbD_eq
  intro k hk
  rw [BitVec.getLsbD_and]
  exact h k hk

theorem sendByte (byte : Byte) : Statement (.sendByte byte) := by
  refine rowHits_of_bits fun k hk => ?_
  interval_cases k <;>
    simp [Instr.mnemonic, Mnemonic.maskBits, Mnemonic.matchBits, encode, encodeFields, pack]

theorem writeCommand (addr : Byte) : Statement (.writeCommand addr) := by
  refine rowHits_of_bits fun k hk => ?_
  interval_cases k <;>
    simp [Instr.mnemonic, Mnemonic.maskBits, Mnemonic.matchBits, encode, encodeFields, pack]

theorem write (addr reg : Byte) : Statement (.write addr reg) := by
  refine rowHits_of_bits fun k hk => ?_
  interval_cases k <;>
    simp [Instr.mnemonic, Mnemonic.maskBits, Mnemonic.matchBits, encode, encodeFields, pack]

theorem writeAddress16 (addr : Byte) (reg : Half) : Statement (.writeAddress16 addr reg) := by
  refine rowHits_of_bits fun k hk => ?_
  interval_cases k <;>
    simp [Instr.mnemonic, Mnemonic.maskBits, Mnemonic.matchBits, encode, encodeFields, pack]

theorem read (addr reg : Byte) : Statement (.read addr reg) := by
  refine rowHits_of_bits fun k hk => ?_
  interval_cases k <;>
    simp [Instr.mnemonic, Mnemonic.maskBits, Mnemonic.matchBits, encode, encodeFields, pack]

theorem readAddress16 (addr : Byte) (reg : Half) : Statement (.readAddress16 addr reg) := by
  refine rowHits_of_bits fun k hk => ?_
  interval_cases k <;>
    simp [Instr.mnemonic, Mnemonic.maskBits, Mnemonic.matchBits, encode, encodeFields, pack]

theorem readCommand (addr : Byte) : Statement (.readCommand addr) := by
  refine rowHits_of_bits fun k hk => ?_
  interval_cases k <;>
    simp [Instr.mnemonic, Mnemonic.maskBits, Mnemonic.matchBits, encode, encodeFields, pack]

end Sys2Proof.Laws.EncodesInItsRow
end

