-- ==== Sys2Proof/Laws/Step.lean ====
section
/-! SUPPORT. What a step can do, said once: a host access by its kind, and every way a step answers a next state. -/

namespace Sys2Proof.Machine

theorem faultSet_add_has {f : FaultSet} {k : FaultKind} (h : f.has k = true) (k' : FaultKind) :
    (f.add k').has k = true := by
  cases k <;> cases k' <;> first | exact h | rfl

/-- What an access that is no write to CMD can leave. -/
inductive Quiet (s t : State) : Prop where
  /-- A read, an ignored write, or an access that records a fault kind. -/
  | answered (a : Answer) (f : FaultSet) (hf : f = s.faults ∨ ∃ k, f = s.faults.add k)
      (ht : t = { s with answer := a, faults := f })
  | lenWritten (v : Word) (ht : t = writeLen v { s with answer := .written })
  | cellWritten (j : Nat) (v : Byte) (hj : j < s.params.bufBytes) (ht : t = { memWrite j v s with answer := .written })

theorem hostAccess_quiet {a : Access} {s t : State} (h : hostAccess a s = .quiet t) : Quiet s t := by
  have refused : Quiet s (refuseAccess s) := .answered .refused _ (.inr ⟨.access, rfl⟩) rfl
  cases a with
  | read8 off =>
    simp only [hostAccess, Fetched.quiet.injEq] at h
    subst h
    rw [readDataByte]
    split
    · exact refused
    · split
      · exact .answered _ _ (.inl rfl) rfl
      · exact .answered _ _ (.inr ⟨.unwritten, rfl⟩) rfl
  | read16 off => cases h; exact refused
  | read32 off =>
    simp only [hostAccess, Fetched.quiet.injEq] at h
    subst h
    rw [readRegister]
    split
    · exact .answered _ _ (.inl rfl) rfl
    · exact refused
  | write8 off v =>
    simp only [hostAccess, Fetched.quiet.injEq] at h
    subst h
    rw [writeDataByte]
    split
    · exact refused
    · rename_i j hj
      refine .cellWritten j v ?_ rfl
      rw [dataIndex] at hj
      split at hj
      · simp only [Option.some.injEq] at hj; omega
      · cases hj
  | write16 off v => cases h; exact refused
  | write32 off v =>
    rw [hostAccess] at h
    unfold writeRegister at h
    split at h <;> cases h
    · exact .lenWritten v rfl
    · exact .answered _ _ (.inl rfl) rfl
    · exact .answered _ _ (.inl rfl) rfl
    · exact refused

/-- The one access that issues a command (R22). -/
theorem hostAccess_command {a : Access} {s t : State} {w : Word} (h : hostAccess a s = .command w t) :
    a = .write32 0x000 w ∧ t = { s with answer := .written } := by
  cases a with
  | write32 off v =>
    rw [hostAccess] at h
    unfold writeRegister at h
    split at h <;> cases h
    exact ⟨rfl, rfl⟩
  | read8 off => cases h
  | read16 off => cases h
  | read32 off => cases h
  | write8 off v => cases h
  | write16 off v => cases h

/-- Every way a step answers a next state. -/
inductive Stepped (s t : State) : Prop where
  | idle (h : s.host = []) (ht : t = s)
  | reset (rest : List HostEvent) (h : s.host = .reset :: rest) (ht : t = applyReset { s with host := rest })
  | overlap (a : Access) (rest : List HostEvent) (h : s.host = .overlap a :: rest)
      (ht : t = overlapAccess { s with host := rest })
  | quiet (a : Access) (rest : List HostEvent) (h : s.host = .access a :: rest) (hq : Quiet { s with host := rest } t)
  | illegal (w : Word) (e : Illegal) (rest : List HostEvent) (h : s.host = .access (.write32 0x000 w) :: rest)
      (hd : decode w = .error e) (ht : t = illegalIssue { s with host := rest, answer := .written })
  | command (w : Word) (i : Instr) (rest : List HostEvent) (h : s.host = .access (.write32 0x000 w) :: rest)
      (hd : decode w = .ok i) (hx : exec i { s with host := rest, answer := .written } = .next t)

theorem step_stepped {s t : State} (hx : step s = .next t) : Stepped s t := by
  cases h : s.host with
  | nil =>
    simp only [step, fetch, h, Host.Outcome.next.injEq] at hx
    exact .idle h hx.symm
  | cons e rest =>
    cases e with
    | reset =>
      simp only [step, fetch, h, Host.Outcome.next.injEq] at hx
      exact .reset rest h hx.symm
    | overlap a =>
      simp only [step, fetch, h, Host.Outcome.next.injEq] at hx
      exact .overlap a rest h hx.symm
    | access a =>
      simp only [step, fetch, h] at hx
      cases ha : hostAccess a { s with host := rest } with
      | quiet u =>
        rw [ha] at hx
        cases hx
        exact .quiet a rest h (hostAccess_quiet ha)
      | command w u =>
        rw [ha] at hx
        obtain ⟨rfl, rfl⟩ := hostAccess_command ha
        cases hd : decode w with
        | error e =>
          simp only [hd, Host.Outcome.next.injEq] at hx
          exact .illegal w e rest h hd hx.symm
        | ok i =>
          simp only [hd] at hx
          exact .command w i rest h hd hx

end Sys2Proof.Machine
end

