-- ==== Sys2Proof/Tests/Slice0.lean ====
section
/-! SUPPORT. Small tests, each about one step or one word, with the expected values of spec/95_test_vectors.md (the section stands
in each docstring), and for every statement with hypotheses a witness that meets them. The parameters are the reference values but
for ACK_POLL_MAX = 2 (vector 2.4.5) and BUF_BYTES = 16, so that a NACK is two high samples. -/

namespace Sys2Proof.Tests

open Sys2Proof Sys2Proof.Machine Sys2Proof.Spec

/-! ### Helpers -/

def small : Params where
  tSettle := 15
  tBit := 10
  tAck := 20
  tPoll := 20
  tWackSettle := 15
  ackPollMax := 2
  bufBytes := 16
  base := 0

/-- UNCONFIGURED, with the given Line Control draws. -/
def cold (draws : List Bool) : State := { State.reset with params := small, lineControl := ⟨draws, 0⟩ }

/-- READY and idle, with the given answers of the peer. -/
def idle (answers : List Bool) : State :=
  { State.reset with params := small, lc := .ready, lines := Lines.idle, peer := ⟨answers, 0⟩ }

/-- The same with LEN = n and the bytes `d` in DATA. -/
def loaded (n : Nat) (d : List Byte) (answers : List Bool) : State :=
  { idle answers with len := BitVec.ofNat 16 n, data := (List.range d.length).zip d }

/-- The same state with one access still to come. -/
def withAccess (s : State) (a : Access) : State := { s with host := [.access a] }

/-- The next state, where there is one. -/
def nextOf (o : Host.Outcome State Fault Refusal) : Option State :=
  match o with
  | .next t => some t
  | .fault _ => none
  | .refused _ => none

theorem next_of {o : Host.Outcome State Fault Refusal} (h : (nextOf o).isSome = true) : ∃ t, o = .next t := by
  cases o with
  | next t => exact ⟨t, rfl⟩
  | fault f => cases h
  | refused r => cases h

/-- The transcript and STATUS a command leaves. -/
def seen (o : Host.Outcome State Fault Refusal) : Option (List Token × Word) :=
  (nextOf o).map (fun t => (transcript t.trace, statusWord t))

/-! ### Well-formedness: each check refuses an ill-formed term -/

/-- §2.1: "`send_byte 0x100` is an assembler error". -/
theorem test_wf_byte : (AsmLine.sendByte 0x100).fits = false ∧ (AsmLine.sendByte 0xFF).fits = true := by decide
theorem test_wf_write_command_addr : (AsmLine.writeCommand 0x100).fits = false := by decide
theorem test_wf_write_addr : (AsmLine.write 0x100 0x10).fits = false := by decide
/-- §2.1: "`write 0x50, 0x1FF` is an assembler error". -/
theorem test_wf_write_reg : (AsmLine.write 0x50 0x1FF).fits = false ∧ (AsmLine.write 0x50 0xFF).fits = true := by decide
theorem test_wf_write16_addr : (AsmLine.writeAddress16 0x100 0x1234).fits = false := by decide
theorem test_wf_write16_reg :
    (AsmLine.writeAddress16 0x50 0x10000).fits = false ∧ (AsmLine.writeAddress16 0x50 0xFFFF).fits = true := by decide
theorem test_wf_read_addr : (AsmLine.read 0x100 0x10).fits = false := by decide
theorem test_wf_read_reg : (AsmLine.read 0x50 0x100).fits = false := by decide
theorem test_wf_read16_addr : (AsmLine.readAddress16 0x100 0x1234).fits = false := by decide
theorem test_wf_read16_reg : (AsmLine.readAddress16 0x50 0x10000).fits = false := by decide
theorem test_wf_read_command_addr : (AsmLine.readCommand 0x100).fits = false := by decide
theorem test_wf_len : (HostLine.len 0x100000000).fits = false ∧ (HostLine.len 0xFFFFFFFF).fits = true := by decide
theorem test_wf_data : (HostLine.data 0 0x100).fits = false ∧ (HostLine.dataList 0 [0xDE, 0x1AD]).fits = false := by decide
theorem test_wf_pseudo :
    (HostLine.probe 0x100).fits = false ∧ (HostLine.sendc 0x100).fits = false ∧ (HostLine.wreg8 0x50 0x10 0x100).fits = false ∧
    (HostLine.wreg8 0x50 0x100 0).fits = false ∧ (HostLine.wreg8 0x100 0x10 0).fits = false ∧
    (HostLine.rreg8 0x100 0x10).fits = false ∧ (HostLine.rreg8 0x50 0x100).fits = false ∧
    (HostLine.command (.sendByte 0x100)).fits = false := by decide
theorem test_wf_refused_line_has_no_word :
    assemble (.write 0x50 0x1FF) = none ∧ hostLineEvents (.data 0 0x100) = none := by decide

/-! ### Decoding: a word of each constructor, written out from R70's fields and R74's opcodes (§2.1) -/

theorem test_decode_init : decode 0x00000001 = .ok .init ∧ encode .init = 0x00000001 := by decide
theorem test_decode_deinit : decode 0x00000002 = .ok .deinit ∧ encode .deinit = 0x00000002 := by decide
theorem test_decode_start : decode 0x00000003 = .ok .start ∧ encode .start = 0x00000003 := by decide
theorem test_decode_stop : decode 0x00000004 = .ok .stop ∧ encode .stop = 0x00000004 := by decide
theorem test_decode_send_byte :
    decode 0b0000000000000000_10100101_000_0_0101 = .ok (.sendByte 0xA5) ∧ encode (.sendByte 0xA5) = 0x0000A505 := by decide
theorem test_decode_wait_ack : decode 0x00000006 = .ok .waitAck ∧ encode .waitAck = 0x00000006 := by decide
theorem test_decode_read_byte :
    decode 0x00000007 = .ok (.readByte false) ∧ decode 0x00000017 = .ok (.readByte true) ∧
    encode (.readByte true) = 0x00000017 := by decide
theorem test_decode_write_command :
    decode 0x00005008 = .ok (.writeCommand 0x50) ∧ encode (.writeCommand 0x50) = 0x00005008 := by decide
theorem test_decode_write :
    decode 0b00000000_00010000_01010000_000_0_1001 = .ok (.write 0x50 0x10) ∧ encode (.write 0x50 0x10) = 0x00105009 := by
  decide
theorem test_decode_write_address16 :
    decode 0b0001001000110100_01010000_000_0_1010 = .ok (.writeAddress16 0x50 0x1234) ∧
    decode 0x0000000A = .ok (.writeAddress16 0 0) ∧ encode (.writeAddress16 0xAE 0xFFFF) = 0xFFFFAE0A := by decide
theorem test_decode_read : decode 0x0010500B = .ok (.read 0x50 0x10) ∧ encode (.read 0x50 0x10) = 0x0010500B := by decide
theorem test_decode_read_address16 :
    decode 0x1234500C = .ok (.readAddress16 0x50 0x1234) ∧ decode 0xFFFFFF0C = .ok (.readAddress16 0xFF 0xFFFF) := by decide
theorem test_decode_read_command :
    decode 0x0000500D = .ok (.readCommand 0x50) ∧ encode (.readCommand 0x50) = 0x0000500D := by decide

theorem test_decode_bad_opcode :
    decode 0x00000000 = .error .opcode ∧ decode 0x0000000E = .error .opcode ∧ decode 0x0000000F = .error .opcode := by decide
theorem test_decode_bad_field :
    decode 0x00000101 = .error .mustBeZero ∧ decode 0x00000011 = .error .mustBeZero ∧
    decode 0x00000021 = .error .mustBeZero ∧ decode 0x00010004 = .error .mustBeZero ∧
    decode 0x0001A505 = .error .mustBeZero ∧ decode 0x00000016 = .error .mustBeZero ∧
    decode 0x00000087 = .error .mustBeZero ∧ decode 0x00000107 = .error .mustBeZero ∧
    decode 0x00105008 = .error .mustBeZero ∧ decode 0x01105009 = .error .mustBeZero ∧
    decode 0x00105019 = .error .mustBeZero ∧ decode 0xFFFFFF1C = .error .mustBeZero ∧
    decode 0x0000501D = .error .mustBeZero := by decide

/-! ### The step from reset -/

/-- The row's instruction as the host asks for it. -/
theorem test_table_word :
    decodeTableWord 32 0x00105009 = some (.write 0x50 0x10) ∧ decodeTableWord 32 0x0000000E = none := by decide

/-- §2.12: START at reset is NOT_READY, and INIT is run by the very next step. -/
theorem test_step_from_reset :
    (nextOf (step (State.reset.withFetchWord 32 0x00000003))).map statusWord = some 0x00000005 ∧
    (nextOf (step ((cold [true, false, false]).withFetchWord 32 0x00000001))).map statusWord = some 0x00000011 := by
  decide

/-- §2.12: a bad word at reset is ILLEGAL, checked before NOT_READY. -/
theorem test_step_illegal_first :
    (nextOf (step (State.reset.withFetchWord 32 0x00000011))).map (fun t => (statusWord t, t.faults.illegal, t.faults.notReady)) =
      some (0x00000004, true, false) := by decide

/-! ### Lifecycle (§2.12) -/

/-- §2.12, with R180's corner case: CONFIGURE leaves SDA high (no condition), then low (a STOP condition). -/
theorem test_init_ok :
    (nextOf (exec .init (cold [true, false, true]))).map (fun t => (t.trace, t.lines, statusWord t)) =
      some ([.configure (.ok false true), .scl true, .sda true], Lines.idle, 0x00000011) ∧
    (nextOf (exec .init (cold [true, false, true]))).map (fun t => conditions Lines.unspecified t.trace) = some [] ∧
    (nextOf (exec .init (cold [true, true, false]))).map (fun t => (t.lines, conditions Lines.unspecified t.trace)) =
      some (Lines.idle, [.stop]) := by decide
theorem test_init_fail :
    (nextOf (exec .init { idle [] with lineControl := ⟨[false], 0⟩ })).map (fun t => (t.trace, t.lines, statusWord t)) =
      some ([.configure .fail], Lines.unspecified, 0x00000003) := by decide
theorem test_deinit_ok :
    (nextOf (exec .deinit { idle [] with lineControl := ⟨[true], 0⟩ })).map (fun t => (t.trace, t.lines, statusWord t)) =
      some ([.release true], Lines.unspecified, 0x00000001) := by decide
theorem test_deinit_fail :
    (nextOf (exec .deinit { idle [] with lineControl := ⟨[false], 0⟩ })).map statusWord = some 0x00000003 := by decide

/-! ### Primitives (§2.2 to §2.6) -/

theorem test_start_from_idle :
    (nextOf (exec .start (idle []))).map (fun t => (t.lines, t.trace.length, waitSum t.trace, conditions Lines.idle t.trace)) =
      some (⟨some false, some .output, some false⟩, 7, 30, [.start]) := by decide
/-- §2.2.2. -/
theorem test_start_repeated :
    (nextOf (exec .start { idle [] with lines := ⟨some false, some .input, some true⟩ })).map
      (fun t => conditions ⟨some false, some .input, some true⟩ t.trace) = some [.start] := by decide
/-- §2.2.4. -/
theorem test_stop_after_ack :
    (nextOf (exec .stop { idle [] with lines := ⟨some false, some .input, some true⟩ })).map
      (fun t => (t.lines, conditions ⟨some false, some .input, some true⟩ t.trace)) = some (Lines.idle, [.stop]) := by decide
/-- §2.2.5. -/
theorem test_stop_from_idle :
    (nextOf (exec .stop (idle []))).map (fun t => (t.lines, conditions Lines.idle t.trace)) =
      some (Lines.idle, [.start, .stop]) := by decide
/-- §2.3.1. -/
theorem test_send_byte_a5 :
    (nextOf (exec (.sendByte 0xA5) { idle [] with lines := ⟨some false, some .output, some false⟩ })).map
      (fun t => (t.trace.length, waitSum t.trace, clockedLevels t.lines t.trace, t.lines)) =
      some (49, 240, [some true, some false, some true, some false, some false, some true, some false, some true],
        ⟨some false, some .output, some true⟩) := by decide
/-- §2.3.4: from idle, without START, the first falling SDA is a START condition. -/
theorem test_send_byte_from_idle :
    (nextOf (exec (.sendByte 0x50) (idle []))).map (fun t => (conditions Lines.idle t.trace, statusWord t)) =
      some ([.start], 0x00000011) := by decide
/-- §2.4.5, with ACK_POLL_MAX = 2 and samples 1, 0. -/
theorem test_wait_ack_second :
    (nextOf (exec .waitAck (idle [true, false, true]))).map (fun t => (t.trace, t.peer.queue, statusWord t)) =
      some ([.dir .input, .sda true, .wait 15, .scl true, .sample true, .wait 20, .sample false, .scl false], [true],
        0x00000011) := by decide
/-- §2.4.5, with ACK_POLL_MAX = 2 and samples 1, 1. -/
theorem test_wait_ack_nack :
    (nextOf (exec .waitAck (idle [true, true]))).map (fun t => (t.trace, t.lines, statusWord t)) =
      some ([.dir .input, .sda true, .wait 15, .scl true, .sample true, .wait 20, .sample true, .dir .output, .sda false,
        .wait 15, .scl true, .wait 15, .sda true], Lines.idle, 0x00000012) := by decide
/-- §2.5.1. -/
theorem test_read_byte_ack :
    (nextOf (exec (.readByte true) (idle [true, false, true, false, true, false, true, false]))).map
      (fun t => (rxWord t, t.trace.length, waitSum t.trace, t.lines)) =
      some (0x000000AA, 50, 240, ⟨some false, some .output, some false⟩) := by decide
/-- §2.5.2. -/
theorem test_read_byte_nack :
    (nextOf (exec (.readByte false) (idle [true, true, false, false, true, true, false, false]))).map
      (fun t => (rxWord t, t.lines)) = some (0x000000CC, ⟨some false, some .output, some true⟩) := by decide

/-! ### Protocol commands (§2.9) -/

/-- §2.9.1. -/
theorem test_write_command :
    seen (exec (.writeCommand 0x50) (loaded 2 [0x01, 0x02] [false, false, false])) =
      some ([.s, .w 0x50, .a, .w 0x01, .a, .w 0x02, .a, .p], 0x00000011) := by decide +kernel
theorem test_write_command_nack_data1 :
    seen (exec (.writeCommand 0x50) (loaded 2 [0x01, 0x02] [false, false, true, true])) =
      some ([.s, .w 0x50, .a, .w 0x01, .a, .w 0x02, .n, .p], 0x00000012) := by decide +kernel
/-- §2.9.2. -/
theorem test_write :
    seen (exec (.write 0x50 0x10) (loaded 1 [0x01] [false, false, false])) =
      some ([.s, .w 0x50, .a, .w 0x10, .a, .w 0x01, .a, .p], 0x00000011) := by decide +kernel
/-- §2.13: DATA[0] holds no value. -/
theorem test_write_unwritten :
    (match exec (.write 0x50 0x10) (loaded 1 [] [false, false]) with
      | .fault (.unwritten j t) => some (j, transcript t.trace, t.faults.unwritten)
      | .next _ => none
      | .refused _ => none) = some (0, [.s, .w 0x50, .a, .w 0x10, .a], true) := by decide +kernel
/-- §1.2, E4. -/
theorem test_write_address16 :
    seen (exec (.writeAddress16 0x50 0x1234) (loaded 0 [] [false, false, false])) =
      some ([.s, .w 0x50, .a, .w 0x12, .a, .w 0x34, .a, .p], 0x00000011) := by decide +kernel
/-- §2.9.3. -/
theorem test_write_address16_nack_low :
    seen (exec (.writeAddress16 0x50 0x1234) (loaded 0 [] [false, false, true, true])) =
      some ([.s, .w 0x50, .a, .w 0x12, .a, .w 0x34, .n, .p], 0x00000012) := by decide +kernel
/-- §1.2, E1. -/
theorem test_read :
    (nextOf (exec (.read 0x50 0x10) (loaded 3 [] ([false, false, false] ++ bitsMsbFirst 0xAA ++ bitsMsbFirst 0xBB ++
      bitsMsbFirst 0xCC)))).map (fun t => (transcript t.trace, t.data, rxWord t)) =
      some ([.s, .w 0x50, .a, .w 0x10, .a, .sr, .w 0x51, .a, .r 0xAA, .mA, .r 0xBB, .mA, .r 0xCC, .mN, .p],
        [(0, 0xAA), (1, 0xBB), (2, 0xCC)], 0) := by decide +kernel
/-- §2.9.6: the only byte is not acknowledged. -/
theorem test_read_one :
    seen (exec (.read 0x50 0x10) (loaded 1 [] ([false, false, false] ++ bitsMsbFirst 0x7E))) =
      some ([.s, .w 0x50, .a, .w 0x10, .a, .sr, .w 0x51, .a, .r 0x7E, .mN, .p], 0x00000011) := by decide +kernel
/-- §2.9.7. -/
theorem test_read_address16 :
    seen (exec (.readAddress16 0x50 0x1234) (loaded 2 [] ([false, false, false, false] ++ bitsMsbFirst 0x5A ++
      bitsMsbFirst 0xC3))) =
      some ([.s, .w 0x50, .a, .w 0x12, .a, .w 0x34, .a, .sr, .w 0x51, .a, .r 0x5A, .mA, .r 0xC3, .mN, .p], 0x00000011) := by
  decide +kernel
theorem test_read_address16_nack_read_form :
    seen (exec (.readAddress16 0x50 0x1234) (loaded 2 [] [false, false, false, true, true])) =
      some ([.s, .w 0x50, .a, .w 0x12, .a, .w 0x34, .a, .sr, .w 0x51, .n, .p], 0x00000012) := by decide +kernel
/-- §2.10.1. -/
theorem test_read_command_empty :
    (nextOf (exec (.readCommand 0x50) (loaded 0 [] [false]))).map
      (fun t => (transcript t.trace, t.trace.length, waitSum t.trace)) = some ([.s, .w 0x51, .a, .p], 68, 315) := by
  decide +kernel
/-- §2.9.9. -/
theorem test_read_command_wraps :
    seen (exec (.readCommand 0xFF) (loaded 0 [] [false])) = some ([.s, .w 0x00, .a, .p], 0x00000011) := by decide +kernel

/-! ### Issue checks (§2.12) and memory (§2.13) -/

theorem test_length_over :
    (nextOf (exec (.readCommand 0x50) (loaded 17 [] []))).map (fun t => (t.trace, statusWord t, t.faults.illegal)) =
      some ([], 0x00000014, true) := by decide
theorem test_length_ignored : (nextOf (exec .start (loaded 17 [] []))).map statusWord = some 0x00000011 := by decide
theorem test_not_ready_before_length :
    (nextOf (exec (.readCommand 0x50) { cold [] with len := 17 })).map statusWord = some 0x00000005 := by decide
theorem test_host_unwritten :
    (nextOf (step (withAccess (idle []) (.read8 0x100)))).map (fun t => (t.answer, t.faults.unwritten)) =
      some (.noValue, true) := by decide
theorem test_host_data :
    (nextOf (step (withAccess (loaded 0 [0x5A] []) (.read8 0x100)))).map (fun t => t.answer) = some (.byte 0x5A) := by decide
theorem test_host_refused :
    ((nextOf (step (withAccess (idle []) (.read32 0x100)))).map (fun t => t.faults.access) = some true) ∧
    ((nextOf (step (withAccess (idle []) (.read8 0x008)))).map (fun t => t.faults.access) = some true) ∧
    ((nextOf (step (withAccess (idle []) (.read32 0x006)))).map (fun t => t.faults.access) = some true) ∧
    ((nextOf (step (withAccess (idle []) (.read32 0x010)))).map (fun t => t.faults.access) = some true) ∧
    ((nextOf (step (withAccess (idle []) (.read8 0x110)))).map (fun t => t.faults.access) = some true) := by decide
theorem test_host_cmd_read :
    (nextOf (step (withAccess (idle []) (.read32 0x000)))).map (fun t => (t.answer, t.faults.access)) =
      some (.word 0, false) := by decide
theorem test_host_len :
    (nextOf (step (withAccess (idle []) (.write32 0x004 0xFFFFFFFF)))).map lenWord = some 0x0000FFFF := by decide
theorem test_host_overlap :
    (nextOf (step { idle [] with host := [.overlap (.write32 0x000 0x3)] })).map (fun t => (t.faults.concurrent, t.trace)) =
      some (true, []) := by decide
/-- §2.7 and §2.8. -/
theorem test_multiplexers :
    regBytes .adr16 0xFF01 = [0xFF, 0x01] ∧ regBytes .adr8 0x00FF = [0xFF] ∧ regBytes .noReg 0 = [] ∧
    readForm 0xAE = 0xAF ∧ readForm 0x51 = 0x52 ∧ readForm 0xFF = 0x00 := by decide
/-- R83's `wreg8`: program 1, lines 2 to 4. -/
theorem test_pseudo_wreg8 :
    hostLineEvents (.wreg8 0x50 0x10 0x01) =
      some [.access (.write8 0x100 0x01), .access (.write32 0x004 1), .access (.write32 0x000 0x00105009)] := by decide
/-- R101: the wire of an idle READY block, and none of an unconfigured one. -/
theorem test_wire : sclBus (idle []) = some true ∧ sdaBus (idle []) = some true ∧ sclBus (cold []) = none := by decide
/-- R56: offsets count from BASE. -/
theorem test_window :
    { small with base := 0x4000 }.addressOf 0x10F = 0x410F ∧ { small with base := 0x4000 }.offsetOf 0x4008 = some 0x008 := by
  decide

/-! ### Witnesses: for each statement with hypotheses a state and operands that meet them all, clause by clause -/

/-- A READY state with SCL low after an acknowledge. -/
def midway (answers : List Bool) : State := { idle answers with lines := ⟨some false, some .input, some true⟩ }

theorem witness_DecodeEncodeRoundTrip : (Instr.writeAddress16 0xFF 0xFFFF).wellFormed = true := by decide
theorem witness_EveryLegalWordIsItsCommandsWord : decode 0xFFFFAE0A = .ok (.writeAddress16 0xAE 0xFFFF) := by decide
theorem witness_DecodeIsTheMaskMatchTable :
    (0x00FFFF09 : Word) &&& Mnemonic.WRITE.maskBits = Mnemonic.WRITE.matchBits ∧
    decode 0x00FFFF09 = .ok (.write 0xFF 0xFF) ∧ decode 0x0000000E = .error .opcode := by decide
/-- No hypothesis: a word on each side of each row of R72's table. -/
theorem witness_IllegalWordsAreNamed :
    mustBeZeroBroken 0x1 0 0 1 0 ∧ ¬mustBeZeroBroken 0x1 0 0 0 0 ∧ mustBeZeroBroken 0x6 0 0 0 0x8000 ∧
    mustBeZeroBroken 0x5 0 0 0xFF 1 ∧ ¬mustBeZeroBroken 0x5 0 0 0xFF 0 ∧ mustBeZeroBroken 0xD 1 0 0 0 ∧
    mustBeZeroBroken 0x7 1 0 1 0 ∧ ¬mustBeZeroBroken 0x7 1 0 0 0 ∧
    mustBeZeroBroken 0xB 0 0 0xFF 0x0100 ∧ ¬mustBeZeroBroken 0xB 0 0 0xFF 0x00FF ∧
    mustBeZeroBroken 0xC 0 4 0xFF 0xFFFF ∧ ¬mustBeZeroBroken 0xC 0 0 0xFF 0xFFFF ∧
    ¬mustBeZeroBroken 0xE 1 7 0xFF 0xFFFF :=
  ⟨by decide, by decide, by decide, by decide, by decide, by decide, by decide, by decide, by decide, by decide, by decide,
    by decide, by decide⟩
theorem witness_OperandsAreTheirBits :
    decode 0x0000FF05 = .ok (.sendByte 0xFF) ∧ decode 0x00000017 = .ok (.readByte true) ∧
    decode 0x0000FF08 = .ok (.writeCommand 0xFF) ∧ decode 0x0000FF0D = .ok (.readCommand 0xFF) ∧
    decode 0x00FF0109 = .ok (.write 0x01 0xFF) ∧ decode 0x00FF010B = .ok (.read 0x01 0xFF) ∧
    decode 0x1234500A = .ok (.writeAddress16 0x50 0x1234) ∧ decode 0x1234500C = .ok (.readAddress16 0x50 0x1234) := by decide
theorem witness_AssemblerEmitsTheCommandWord :
    (lineInRange (.read 0xFF 0xFF) ∧ assemble (.read 0xFF 0xFF) = some 0x00FFFF0B) ∧
    (¬lineInRange (.read 0xFF 0x100) ∧ assemble (.read 0xFF 0x100) = none) ∧
    (¬lineInRange (.writeAddress16 0 0x10000) ∧ assemble (.writeAddress16 0 0x10000) = none) ∧
    assemble (.writeAddress16 0xAE 0xFFFF) = some 0xFFFFAE0A ∧ assemble (.readByte true) = some 0x00000017 := by
  simp only [lineInRange]; decide
theorem witness_StepRunsTheIssuedCommand :
    issued (withAccess (idle []) (.write32 0x000 0x00000003)) 0x00000003 [] ∧ decode 0x00000003 = .ok .start := by decide
theorem witness_NothingHappensWithoutAnAccess : State.reset.host = [] := rfl
theorem witness_IssueChecksRunInOrder :
    (issued (withAccess (cold []) (.write32 0x000 0x0000000F)) 0x0000000F [] ∧ decode 0x0000000F = .error .opcode) ∧
    (issued (withAccess (cold []) (.write32 0x000 0x00000002)) 0x00000002 [] ∧ decode 0x00000002 = .ok .deinit ∧
      Instr.deinit ≠ .init ∧ (withAccess (cold []) (.write32 0x000 0x00000002)).lc = .unconfigured) ∧
    (decode 0x0000500D = .ok (.readCommand 0x50) ∧ (Instr.readCommand 0x50).isProtocol = true ∧
      (loaded 17 [] []).lc = .ready ∧ (loaded 17 [] []).params.bufBytes < (loaded 17 [] []).len.toNat) ∧
    (passesChecks (.readCommand 0x50) (loaded 16 [] []) ∧ passesChecks .start (loaded 17 [] []) ∧
      passesChecks .init (cold [])) := by decide
theorem witness_PassedCommandsReportTheirCodes :
    passesChecks .waitAck (idle [true, true]) ∧ ∃ t, exec .waitAck (idle [true, true]) = .next t :=
  ⟨by decide, next_of (by decide)⟩
theorem witness_RegisterReadsAnswerTheirFields :
    (withAccess (idle []) (.read32 0x000)).host = .access (.read32 0x000) :: [] ∧
    (withAccess (idle []) (.read32 0x004)).host = .access (.read32 0x004) :: [] ∧
    (withAccess (idle []) (.read32 0x008)).host = .access (.read32 0x008) :: [] ∧
    (withAccess (idle []) (.read32 0x00C)).host = .access (.read32 0x00C) :: [] := by decide
theorem witness_RegisterWritesSetLenOnly :
    (withAccess (idle []) (.write32 0x004 0xFFFFFFFF)).host = .access (.write32 0x004 0xFFFFFFFF) :: [] ∧
    (withAccess (idle []) (.write32 0x008 1)).host = .access (.write32 0x008 1) :: [] ∧
    (withAccess (idle []) (.write32 0x00C 1)).host = .access (.write32 0x00C 1) :: [] := by decide
/-- The accesses on both sides of each edge of R56's map. -/
theorem witness_RefusedAccessesRecordOnly :
    permitted 16 (.read8 0x0FF) = false ∧ permitted 16 (.read8 0x100) = true ∧ permitted 16 (.write8 0x10F 0) = true ∧
    permitted 16 (.write8 0x110 0) = false ∧ permitted 16 (.read32 0x010) = false ∧ permitted 16 (.read32 0x006) = false ∧
    permitted 16 (.write16 0x000 0) = false ∧ permitted 16 (.read16 0x100) = false ∧
    (withAccess (idle []) (.read32 0x100)).host = .access (.read32 0x100) :: [] ∧
    permitted (idle []).params.bufBytes (.read32 0x100) = false := by decide
theorem witness_HostDataAccesses :
    15 < (loaded 0 [0x5A] []).params.bufBytes ∧ memRead 0 (loaded 0 [0x5A] []) = some 0x5A ∧
    memRead 15 (loaded 0 [0x5A] []) = none ∧
    (withAccess (loaded 0 [0x5A] []) (.write8 (0x100 + 15) 7)).host = .access (.write8 (0x100 + 15) 7) :: [] ∧
    (withAccess (loaded 0 [0x5A] []) (.read8 (0x100 + 0))).host = .access (.read8 (0x100 + 0)) :: [] ∧
    (withAccess (loaded 0 [0x5A] []) (.read8 (0x100 + 15))).host = .access (.read8 (0x100 + 15)) :: [] := by decide
theorem witness_OverlappingAccessesRecordOnly :
    { idle [] with host := [.overlap (.read32 0x008)] }.host = .overlap (.read32 0x008) :: [] := by decide
theorem witness_ResetGivesTheResetValues : { idle [] with host := [.reset] }.host = .reset :: [] := by decide
theorem witness_StartMakesItsSequence :
    ((idle []).lc = .ready ∧ (idle []).lines.settled) ∧ (midway []).lc = .ready ∧ (midway []).lines.settled := by decide
theorem witness_StopMakesItsSequence :
    ((idle []).lc = .ready ∧ (idle []).lines.settled ∧ (idle []).lines = Lines.idle) ∧
    ((midway []).lc = .ready ∧ (midway []).lines.settled ∧ (midway []).lines ≠ Lines.idle) := by decide
theorem witness_SendByteShiftsOutMsbFirst :
    decode 0x0000FF05 = .ok (.sendByte 0xFF) ∧ ((idle []).lc = .ready ∧ (idle []).lines = Lines.idle ∧
      (0x7F : Byte).getLsbD 7 = false ∧ (0x80 : Byte).getLsbD 7 = true) ∧ ((midway []).lc = .ready ∧ (midway []).lines.sclOut = some false) := by decide
theorem witness_WaitAckPollsWithinItsBudget :
    (idle []).lc = .ready ∧ (idle []).params.wf ∧
    (0 < (idle [false]).params.ackPollMax ∧ peerLevel (idle [false]) 0 = false) ∧
    (1 < (idle [true, false]).params.ackPollMax ∧ (∀ j, j < 1 → peerLevel (idle [true, false]) j = true) ∧
      peerLevel (idle [true, false]) 1 = false) ∧
    (∀ j, j < (idle [true, true]).params.ackPollMax → peerLevel (idle [true, true]) j = true) := by decide
theorem witness_WaitAckResultIsTheSamples : (idle [true, false]).lc = .ready ∧ (idle [true, false]).params.wf := by decide
theorem witness_AbortEdgeIsStartThenStop :
    (midway [true, true]).lc = .ready ∧ (midway [true, true]).params.wf ∧
    ∀ j, j < (midway [true, true]).params.ackPollMax → peerLevel (midway [true, true]) j = true := by decide
theorem witness_ReadByteShiftsInMsbFirst : decode 0x00000017 = .ok (.readByte true) ∧ (midway []).lc = .ready := by decide
theorem witness_LoopbackPeerReturnsTheByteSent : (idle []).lc = .ready := by decide
theorem witness_InitConfiguresAndIdlesTheBus :
    lineControlDraw (cold [true, false, true]) 0 = true ∧ lineControlDraw (cold [false]) 0 = false := by decide
theorem witness_DeinitReleasesTheBus : (idle []).lc = .ready := by decide
theorem witness_InitTakesItsDraws :
    (∃ t, exec .init (cold [true, false, true]) = .next t) ∧ (∃ t, exec .init (cold [false]) = .next t) ∧
    ((idle []).lc = .ready ∧ ∃ t, exec .deinit (idle []) = .next t) :=
  ⟨next_of (by decide), next_of (by decide), by decide, next_of (by decide)⟩
theorem witness_OnlyInitRunsUnconfigured : Instr.start ≠ .init ∧ (cold []).lc = .unconfigured := by decide
theorem witness_OnlyInitAndDeinitChangeLc :
    ((∃ t, exec .start (idle []) = .next t) ∧ Instr.start ≠ .init ∧ Instr.start ≠ .deinit) ∧
    ((withAccess (idle []) (.write32 0x000 0x00000003)).host = .access (.write32 0x000 0x00000003) :: [] ∧
      HostEvent.access (.write32 0x000 0x00000003) ≠ .reset ∧ decode 0x00000003 = .ok .start ∧
      ∃ t, step (withAccess (idle []) (.write32 0x000 0x00000003)) = .next t) :=
  ⟨⟨next_of (by decide), by decide, by decide⟩, by decide, by decide, by decide, next_of (by decide)⟩
theorem witness_RegisterMultiplexer :
    (Instr.readAddress16 0x50 0x1234).isProtocol = true ∧ (loaded 16 [] []).lc = .ready ∧
    (loaded 16 [] []).len.toNat ≤ (loaded 16 [] []).params.bufBytes := by decide
theorem witness_DeviceAddressBytes : (0x50 : Byte).getLsbD 0 = false := by decide
/-- WRITE 0x50, 0x10 with one data byte, acknowledged at samples 1, 2 and 1. -/
theorem witness_WriteCommandsSendEveryByte :
    writeHeader (.write 0x50 0x10) = some [0x50, 0x10] ∧
    (loaded 1 [0x01] [false, true, false, false]).lc = .ready ∧
    (loaded 1 [0x01] [false, true, false, false]).len.toNat ≤ (loaded 1 [0x01] [false, true, false, false]).params.bufBytes ∧
    [(0x01 : Byte)].length = (loaded 1 [0x01] [false, true, false, false]).len.toNat ∧
    (∀ j (h : j < [(0x01 : Byte)].length), memRead j (loaded 1 [0x01] [false, true, false, false]) = some [(0x01 : Byte)][j]) ∧
    [0, 1, 0].length = [(0x50 : Byte), 0x10].length + [(0x01 : Byte)].length ∧
    (∀ k ∈ [0, 1, 0], k < (loaded 1 [0x01] [false, true, false, false]).params.ackPollMax) ∧
    answersAre (loaded 1 [0x01] [false, true, false, false]) ([0, 1, 0].flatMap ackAnswers) := by decide
/-- The least and the greatest length, and the other two write commands. -/
theorem witness_WriteCommandsSendEveryByte_lengths :
    ((loaded 0 [] [false]).len.toNat = 0 ∧ answersAre (loaded 0 [] [false]) ([0].flatMap ackAnswers)) ∧
    (loaded 16 [] []).len.toNat ≤ (loaded 16 [] []).params.bufBytes ∧
    writeHeader (.writeCommand 0x50) = some [0x50] ∧ writeHeader (.writeAddress16 0x50 0x1234) = some [0x50, 0x12, 0x34] := by
  decide
/-- E2 (§1.2): the register byte is not acknowledged. -/
theorem witness_WriteCommandsAbortAtFirstNack :
    writeHeader (.write 0x50 0x10) = some [0x50, 0x10] ∧
    (loaded 1 [0x01] [false, true, true]).lc = .ready ∧
    (loaded 1 [0x01] [false, true, true]).len.toNat ≤ (loaded 1 [0x01] [false, true, true]).params.bufBytes ∧
    ([] : List Byte).length ≤ (loaded 1 [0x01] [false, true, true]).len.toNat ∧
    (loaded 1 [0x01] [false, true, true]).params.wf ∧
    [(0x50 : Byte), 0x10] ++ [] = [0x50] ++ 0x10 :: [] ∧ [0].length = [(0x50 : Byte)].length ∧
    (∀ k ∈ [0], k < (loaded 1 [0x01] [false, true, true]).params.ackPollMax) ∧
    answersAre (loaded 1 [0x01] [false, true, true]) ([0].flatMap ackAnswers ++ List.replicate 2 true) ∧
    (loaded 1 [0x01] [false, true, true]).params.ackPollMax = 2 := by decide
/-- §2.13: `len 1`, `write 0x50, 0x10` with DATA[0] unwritten. -/
theorem witness_UnwrittenCellStopsAWrite :
    writeHeader (.write 0x50 0x10) = some [0x50, 0x10] ∧
    (loaded 1 [] [false, false]).lc = .ready ∧
    (loaded 1 [] [false, false]).len.toNat ≤ (loaded 1 [] [false, false]).params.bufBytes ∧
    ([] : List Byte).length < (loaded 1 [] [false, false]).len.toNat ∧
    memRead ([] : List Byte).length (loaded 1 [] [false, false]) = none ∧
    [0, 0].length = [(0x50 : Byte), 0x10].length + ([] : List Byte).length ∧
    (∀ k ∈ [0, 0], k < (loaded 1 [] [false, false]).params.ackPollMax) ∧
    answersAre (loaded 1 [] [false, false]) ([0, 0].flatMap ackAnswers) := by decide
/-- READ 0x50, 0x10 with N = 2, the read-form address acknowledged at sample 2. -/
theorem witness_ReadCommandsStoreEveryByte :
    ∃ s : State, readHeader (.read 0x50 0x10) = some ([0x50, 0x10], 0x51) ∧ s.lc = .ready ∧
      s.len.toNat ≤ s.params.bufBytes ∧ [(0x5A : Byte), 0xC3].length = s.len.toNat ∧
      [0, 0].length = [(0x50 : Byte), 0x10].length ∧ (∀ n ∈ [0, 0] ++ [1], n < s.params.ackPollMax) ∧
      answersAre s (([0, 0] ++ [1]).flatMap ackAnswers ++ [(0x5A : Byte), 0xC3].flatMap bitsMsbFirst) :=
  ⟨loaded 2 [] ([false, false, true, false] ++ bitsMsbFirst 0x5A ++ bitsMsbFirst 0xC3), by decide⟩
theorem witness_ReadCommandsStoreEveryByte_others :
    readHeader (.readAddress16 0x50 0x1234) = some ([0x50, 0x12, 0x34], 0x51) ∧ readHeader (.readCommand 0xFF) = some ([], 0x00) ∧
    answersAre (loaded 0 [] [false]) (([] ++ [0]).flatMap ackAnswers ++ ([] : List Byte).flatMap bitsMsbFirst) := by decide
/-- The first clause: the first byte is not acknowledged. The second: the read-form address is not. -/
theorem witness_ReadCommandsAbortAtFirstNack :
    (∃ s : State, readHeader (.read 0x50 0x10) = some ([0x50, 0x10], 0x51) ∧ s.lc = .ready ∧
      s.len.toNat ≤ s.params.bufBytes ∧ s.params.wf ∧ (∀ k ∈ ([] : List Nat), k < s.params.ackPollMax) ∧
      answersAre s (([] : List Nat).flatMap ackAnswers ++ List.replicate s.params.ackPollMax true) ∧
      [(0x50 : Byte), 0x10] = [] ++ 0x50 :: [0x10] ∧ ([] : List Nat).length = ([] : List Byte).length) ∧
    (∃ s : State, s.lc = .ready ∧ s.len.toNat ≤ s.params.bufBytes ∧ s.params.wf ∧ (∀ k ∈ [0, 0], k < s.params.ackPollMax) ∧
      answersAre s ([0, 0].flatMap ackAnswers ++ List.replicate s.params.ackPollMax true) ∧
      [0, 0].length = [(0x50 : Byte), 0x10].length) :=
  ⟨⟨loaded 1 [] [true, true], by decide⟩, ⟨loaded 1 [] [false, false, true, true], by decide⟩⟩
theorem witness_ExactlyOneStopPerProtocolCommand :
    (Instr.readCommand 0x50).isProtocol = true ∧ passesChecks (.readCommand 0x50) (loaded 0 [] [false]) ∧
    (loaded 0 [] [false]).lines.settled ∧ ∃ t, exec (.readCommand 0x50) (loaded 0 [] [false]) = .next t :=
  ⟨by decide, by decide, by decide, next_of (by decide +kernel)⟩
theorem witness_ReadCommandsTouchOnlyTheirCells :
    (Instr.readCommand 0x50).isProtocolRead = true ∧
    (nextOf (exec (.readCommand 0x50) (loaded 1 [0x01] [true, true]))).map (fun t => t.result) = some .nack ∧
    (loaded 1 [0x01] [true, true]).len.toNat ≤ 1 := by decide +kernel
theorem witness_CommandsLeaveTheRestUnchanged :
    (∃ t, exec (.sendByte 0x50) (loaded 1 [0x01] []) = .next t) ∧ (∀ f, Instr.sendByte 0x50 ≠ .readByte f) ∧
    (Instr.sendByte 0x50).isProtocolRead = false ∧ Instr.sendByte 0x50 ≠ .init ∧ Instr.sendByte 0x50 ≠ .deinit :=
  ⟨next_of (by decide), by decide, by decide, by decide, by decide⟩
theorem witness_SamplesAreTakenOnlyAsInput : ∃ t, exec .waitAck (idle [false]) = .next t := next_of (by decide)
theorem witness_EndStatesOfTheLines :
    (passesChecks .waitAck (idle [false]) ∧ (nextOf (exec .waitAck (idle [false]))).map (fun t => t.result) = some .ok) ∧
    (nextOf (exec .waitAck (idle [true, true]))).map (fun t => t.result) = some .nack ∧
    (passesChecks .init (cold [true, false, false]) ∧
      (nextOf (exec .init (cold [true, false, false]))).map (fun t => t.result) = some .ok) := by decide
/-- A READY state as INIT leaves it, with a START to come. -/
def initialised : State :=
  { withAccess (idle []) (.write32 0x000 0x00000003) with trace := [.configure (.ok true true), .scl true, .sda true] }

theorem witness_StepKeepsTheInvariant : initialised.Inv ∧ ∃ t, step initialised = .next t :=
  ⟨⟨by decide, ⟨rfl, by decide⟩, .inl rfl, rfl⟩, next_of (by decide)⟩
theorem witness_FaultsAreSticky :
    FaultSet.has { idle [] with host := [.reset], faults := FaultSet.empty.add .access }.faults .access = true ∧
    ∃ t, step { idle [] with host := [.reset], faults := FaultSet.empty.add .access } = .next t :=
  ⟨by decide, next_of (by decide)⟩
theorem witness_StepTakesOneAccess :
    ∃ t, step { idle [] with host := [.reset, .access (.read32 0x008)] } = .next t := next_of (by decide)
/-- One witness for each clause: READ_COMMAND with one check, WAIT_ACK with its ACK at sample 1 and at the last sample, and a NACK. -/
theorem witness_DelayBudget :
    (Instr.readCommand 0x50 ≠ .waitAck ∧ passesChecks (.readCommand 0x50) (loaded 0 [] [false]) ∧
      (∃ t, exec (.readCommand 0x50) (loaded 0 [] [false]) = .next t) ∧ (loaded 0 [] [false]).params.wf ∧
      ∀ k, k < checksOf (.readCommand 0x50) (loaded 0 [] [false]).len.toNat → peerLevel (loaded 0 [] [false]) k = false) ∧
    ((idle [true, false]).lc = .ready ∧ (∃ t, exec .waitAck (idle [true, false]) = .next t) ∧
      1 < (idle [true, false]).params.ackPollMax ∧ (∀ j, j < 1 → peerLevel (idle [true, false]) j = true) ∧
      peerLevel (idle [true, false]) 1 = false ∧ peerLevel (idle [false]) 0 = false) ∧
    ((idle [true, true]).lc = .ready ∧ (∃ t, exec .waitAck (idle [true, true]) = .next t) ∧ (idle [true, true]).params.wf ∧
      ∀ j, j < (idle [true, true]).params.ackPollMax → peerLevel (idle [true, true]) j = true) ∧
    (Config.reference.tSettle = 15 ∧ Config.reference.tBit = 10 ∧ Config.reference.tAck = 20 ∧ Config.reference.tPoll = 20 ∧
      Config.reference.tWackSettle = 15 ∧ Config.reference.ackPollMax = 500) :=
  ⟨⟨by decide, by decide, next_of (by decide +kernel), by decide, by decide⟩,
    ⟨by decide, next_of (by decide), by decide, by decide, by decide, by decide⟩,
    ⟨by decide, next_of (by decide), by decide, by decide⟩, by decide⟩

end Sys2Proof.Tests
end

section
/-! SUPPORT. The invariant of the block: what a proof of it for a next state needs, then every sequence, command and access in turn,
and the statement that every step keeps it (O44). -/

namespace Sys2Proof.Machine

/-! ### The parts of the invariant -/

theorem dataInv_of_inv {s : State} (h : s.Inv) : s.dataInv := by
  obtain ⟨-, hd, -, -⟩ := h
  exact hd

theorem dataInv_congr {s t : State} (h : s.dataInv) (hp : t.params = s.params) (hd : t.data = s.data) : t.dataInv := by
  rwa [State.dataInv, hp, hd]

theorem linesInv_of_ready {s : State} (hlc : s.lc = .ready) (h : s.lines.settled) : s.linesInv := by
  rwa [State.linesInv, hlc]

theorem linesInv_of_unconfigured {s : State} (hlc : s.lc = .unconfigured) (h : s.lines = Lines.unspecified) :
    s.linesInv := by
  rwa [State.linesInv, hlc]

theorem settled_idle : Lines.idle.settled := .inl rfl

/-- SCL low with SDA an output is settled at either level (R117). -/
theorem settled_sclLow_output (b : Level) : Lines.settled ⟨some false, some .output, some b⟩ := by
  cases b
  · exact .inr (.inl rfl)
  · exact .inr (.inr (.inl rfl))

theorem settled_sclLow_released : Lines.settled ⟨some false, some .input, some true⟩ := .inr (.inr (.inr rfl))

/-- The invariant speaks of the parameters, DATA, LC, the lines and the trace only. -/
theorem inv_congr {s t : State} (h : s.Inv) (hp : t.params = s.params) (hd : t.data = s.data) (hlc : t.lc = s.lc)
    (hl : t.lines = s.lines) (ht : t.trace = s.trace) : t.Inv := by
  rwa [State.Inv, State.dataInv, State.linesInv, hp, hd, hlc, hl, ht]

/-- Where the new events of the trace are what moved the lines, the trace still explains the lines (R32, R100). -/
theorem inv_of_events {s t : State} {es : List Event} (h : s.Inv) (hp : t.params = s.params) (hd : t.dataInv)
    (hli : t.linesInv) (hl : t.lines = linesAfterAll es s.lines) (ht : t.trace = s.trace ++ es) : t.Inv := by
  obtain ⟨hwf, -, -, htrace⟩ := h
  refine ⟨by rwa [hp], hd, hli, ?_⟩
  rw [hl, ht, linesAfterAll_append, ← htrace]

/-- A run of events of a READY block keeps the invariant where it leaves settled lines and DATA as it must be. -/
theorem inv_of_ran {s t : State} {es : List Event} (h : s.Inv) (hlc : s.lc = .ready) (hr : Ran s es t) (hd : t.dataInv)
    (hset : t.lines.settled) : t.Inv := by
  obtain ⟨hp, -, hlc', -⟩ := ran_frame hr
  exact inv_of_events h hp hd (linesInv_of_ready (hlc'.trans hlc) hset) (ran_lines hr) (ran_trace hr)

/-- The same where DATA is unchanged. -/
theorem inv_of_ran_data {s t : State} {es : List Event} (h : s.Inv) (hlc : s.lc = .ready) (hr : Ran s es t)
    (hd : t.data = s.data) (hset : t.lines.settled) : t.Inv :=
  inv_of_ran h hlc hr (dataInv_congr (dataInv_of_inv h) (ran_frame hr).1 hd) hset

/-! ### Commands -/

theorem initSeq_inv {s : State} (h : s.Inv) : (initSeq s).Inv := by
  have hd := dataInv_of_inv h
  cases hdraw : lineControlDraw s 0 with
  | true =>
    rw [initSeq_ok hdraw]
    exact inv_of_events h rfl hd (linesInv_of_ready rfl settled_idle) rfl rfl
  | false =>
    rw [initSeq_fail hdraw]
    exact inv_of_events h rfl hd (linesInv_of_unconfigured rfl rfl) rfl rfl

theorem deinitSeq_inv {s : State} (h : s.Inv) : (deinitSeq s).Inv := by
  have hd := dataInv_of_inv h
  rw [deinitSeq_eq]
  exact inv_of_events h rfl hd (linesInv_of_unconfigured rfl rfl) rfl rfl

theorem startSeq_inv {s : State} (h : s.Inv) (hlc : s.lc = .ready) : (startSeq s).Inv := by
  refine inv_of_ran_data h hlc (ran_start s) ?_ ?_ <;> rw [startSeq_eq]
  exact settled_sclLow_output false

theorem stopSeq_inv {s : State} (h : s.Inv) (hlc : s.lc = .ready) : (stopSeq s).Inv := by
  refine inv_of_ran_data h hlc (ran_stop s) ?_ ?_ <;> rw [stopSeq_eq]
  exact settled_idle

theorem ran_sendByte (b : Byte) (s : State) : Ran s (sendByteEvents s.params b) (sendByteSeq b s) := by
  rw [sendByteSeq_eq]; simp [Ran, linesAfterAll_sendByte]

theorem sendByteSeq_inv {s : State} (b : Byte) (h : s.Inv) (hlc : s.lc = .ready) : (sendByteSeq b s).Inv := by
  refine inv_of_ran_data h hlc (ran_sendByte b s) ?_ ?_ <;> rw [sendByteSeq_eq]
  exact settled_sclLow_output _

theorem waitAckSeq_inv {s : State} (h : s.Inv) (hlc : s.lc = .ready) : (waitAckSeq s).2.Inv := by
  rcases waitAckSeq_cases s with ⟨k, -, -, -, e⟩ | ⟨-, e⟩ <;> rw [e]
  · exact inv_of_ran_data (es := ackEvents s.params k) h hlc (by simp [Ran]) rfl settled_sclLow_released
  · exact inv_of_ran_data (es := nackEvents s.params) h hlc (by simp [Ran]) rfl settled_idle

theorem readByteSeq_inv {s : State} (ackf : Bool) (h : s.Inv) (hlc : s.lc = .ready) : (readByteSeq ackf s).2.Inv := by
  refine inv_of_ran_data h hlc (ran_readByte ackf s) ?_ ?_ <;> rw [readByteSeq_eq]
  exact settled_sclLow_output _

/-- A protocol command stores only below its length, so inside the buffer once the length has passed its check (R77). -/
theorem ended_dataInv {n : Nat} {s t : State} {es : List Event} (he : Ended n s t es) (hn : n ≤ s.params.bufBytes)
    (h : s.dataInv) : t.dataInv := by
  obtain ⟨hwf, hbound⟩ := h
  refine ⟨he.wf hwf, fun c hc => ?_⟩
  rw [(ran_frame he.ran).1]
  rcases he.bound c hc with hold | hnew
  · exact hbound c hold
  · exact hnew.trans_le hn

theorem ended_inv {n : Nat} {s t : State} {es : List Event} (he : Ended n s t es) (hn : n ≤ s.params.bufBytes)
    (h : s.Inv) (hlc : s.lc = .ready) : t.Inv :=
  inv_of_ran h hlc he.ran (ended_dataInv he hn (dataInv_of_inv h)) (by rw [he.idle]; exact settled_idle)

theorem exec_inv {i : Instr} {s t : State} (h : s.Inv) (hx : exec i s = .next t) : t.Inv := by
  cases exec_answered hx with
  | notReady _ _ ht => subst ht; exact inv_congr h rfl rfl rfl rfl rfl
  | length _ _ _ ht => subst ht; exact inv_congr h rfl rfl rfl rfl rfl
  | init _ ht => subst ht; exact initSeq_inv h
  | deinit _ _ ht => subst ht; exact deinitSeq_inv h
  | start _ hlc ht => subst ht; exact inv_congr (startSeq_inv h hlc) rfl rfl rfl rfl rfl
  | stop _ hlc ht => subst ht; exact inv_congr (stopSeq_inv h hlc) rfl rfl rfl rfl rfl
  | sendByte b _ hlc ht => subst ht; exact inv_congr (sendByteSeq_inv b h hlc) rfl rfl rfl rfl rfl
  | waitAck _ hlc ht => subst ht; exact inv_congr (waitAckSeq_inv h hlc) rfl rfl rfl rfl rfl
  | readByte f _ hlc ht => subst ht; exact inv_congr (readByteSeq_inv f h hlc) rfl rfl rfl rfl rfl
  | protocol _ hlc hn _ he _ => exact ended_inv he hn h hlc

/-! ### Accesses and the reset -/

theorem quiet_inv {s t : State} (h : s.Inv) (hq : Quiet s t) : t.Inv := by
  cases hq with
  | answered _ _ _ ht => subst ht; exact inv_congr h rfl rfl rfl rfl rfl
  | lenWritten _ ht => subst ht; exact inv_congr h rfl rfl rfl rfl rfl
  | cellWritten j v hj ht =>
    subst ht
    obtain ⟨hwf, hd, hli, htrace⟩ := h
    exact ⟨hwf, dataInv_congr (dataInv_memWrite (v := v) hj hd) rfl rfl, hli, htrace⟩

theorem applyReset_inv {s : State} (h : s.Inv) : (applyReset s).Inv := by
  obtain ⟨hwf, -, -, -⟩ := h
  exact ⟨hwf, ⟨rfl, by simp⟩, linesInv_of_unconfigured rfl rfl, rfl⟩

theorem step_inv {s t : State} (h : s.Inv) (hx : step s = .next t) : t.Inv := by
  cases step_stepped hx with
  | idle _ ht => subst ht; exact h
  | reset rest _ ht =>
    subst ht
    exact applyReset_inv (s := { s with host := rest }) (inv_congr h rfl rfl rfl rfl rfl)
  | overlap _ _ _ ht => subst ht; exact inv_congr h rfl rfl rfl rfl rfl
  | quiet _ rest _ hq => exact quiet_inv (s := { s with host := rest }) (inv_congr h rfl rfl rfl rfl rfl) hq
  | illegal _ _ _ _ _ ht => subst ht; exact inv_congr h rfl rfl rfl rfl rfl
  | command _ _ rest _ _ hx =>
    exact exec_inv (s := { s with host := rest, answer := .written }) (inv_congr h rfl rfl rfl rfl rfl) hx

end Sys2Proof.Machine

namespace Sys2Proof.Proofs

/-- Settles O44: by the cases of a step, each of which leaves the invariant's five fields alone, resets them, or appends to the trace
the very events that moved the lines. -/
theorem stepKeepsTheInvariant : Obligations.StepKeepsTheInvariant := by
  unfold Obligations.StepKeepsTheInvariant
  intro s t h hx
  exact Machine.step_inv h hx

end Sys2Proof.Proofs
end

section
/-! SUPPORT. The state as commands, accesses and the reset change it (10_state.md): what every command leaves unchanged, what a step
does at each kind of entry, the register views, and the statements of that family (O31, O40, O41, O8, O12, O13, O17, O45). -/

namespace Sys2Proof.Machine

/-! ### What a command leaves unchanged -/

/-- `t` differs from `s` at most in what INIT and DEINIT change (R180, R181). -/
def LineControlled (s t : State) : Prop :=
  t = { s with result := t.result, lc := t.lc, lines := t.lines, trace := t.trace, lineControl := t.lineControl }

theorem initSeq_lineControlled (s : State) : LineControlled s (initSeq s) := by
  cases h : lineControlDraw s 0 with
  | true => rw [initSeq_ok h]; rfl
  | false => rw [initSeq_fail h]; rfl

theorem deinitSeq_lineControlled (s : State) : LineControlled s (deinitSeq s) := by
  rw [deinitSeq_eq]; rfl

theorem lineControlled_frame {s t : State} (h : LineControlled s t) :
    t.params = s.params ∧ t.len = s.len ∧ t.host = s.host ∧ t.answer = s.answer ∧ t.rx = s.rx ∧ t.data = s.data ∧
      t.peer = s.peer := by
  rw [h]; simp

/-- An issue check ended the command: a fault kind is recorded and RESULT says so (R203). -/
def IssueStopped (s t : State) : Prop := ∃ c k, t = complete c (recordFault k s)

theorem issueStopped_notReady (s : State) : IssueStopped s (notReadyIssue s) := ⟨_, _, rfl⟩

theorem issueStopped_illegal (s : State) : IssueStopped s (illegalIssue s) := ⟨_, _, rfl⟩

theorem ran_waitAck (s : State) : ∃ es, Ran s es (waitAckSeq s).2 := by
  rcases waitAckSeq_cases s with ⟨k, -, -, -, e⟩ | ⟨-, e⟩ <;> rw [e]
  · exact ⟨ackEvents s.params k, by simp [Ran]⟩
  · exact ⟨nackEvents s.params, by simp [Ran]⟩

theorem waitAckSeq_frame (s : State) : (waitAckSeq s).2.data = s.data ∧ (waitAckSeq s).2.rx = s.rx := by
  rcases waitAckSeq_cases s with ⟨k, -, -, -, e⟩ | ⟨-, e⟩ <;> rw [e] <;> exact ⟨rfl, rfl⟩

theorem ran_setRx {s t : State} {es : List Event} (v : Byte) (h : Ran s es t) : Ran s es { t with rx := v } := by
  rw [Ran]; rw [h]

/-- Every command but INIT and DEINIT either is ended by an issue check or is a run of line events. -/
theorem exec_issueStopped_or_ran {i : Instr} {s t : State} (hx : exec i s = .next t) (hi : i ≠ .init)
    (hd : i ≠ .deinit) : IssueStopped s t ∨ ∃ es, Ran s es t := by
  cases exec_answered hx with
  | notReady _ _ ht => exact .inl (ht ▸ issueStopped_notReady s)
  | length _ _ _ ht => exact .inl (ht ▸ issueStopped_illegal s)
  | init h _ => exact absurd h hi
  | deinit h _ _ => exact absurd h hd
  | start _ _ ht => exact .inr ⟨_, ht ▸ ran_complete .ok (ran_start s)⟩
  | stop _ _ ht => exact .inr ⟨_, ht ▸ ran_complete .ok (ran_stop s)⟩
  | sendByte b _ _ ht => exact .inr ⟨_, ht ▸ ran_complete .ok (ran_sendByte b s)⟩
  | waitAck _ _ ht =>
    obtain ⟨es, hr⟩ := ran_waitAck s
    exact .inr ⟨es, ht ▸ ran_complete _ hr⟩
  | readByte f _ _ ht => exact .inr ⟨_, ht ▸ ran_complete .ok (ran_setRx _ (ran_readByte f s))⟩
  | protocol _ _ _ es he _ => exact .inr ⟨es, he.ran⟩

/-- INIT and DEINIT are ended by an issue check or touch Line Control's fields only. -/
theorem exec_issueStopped_or_lineControlled {i : Instr} {s t : State} (hx : exec i s = .next t)
    (hi : i = .init ∨ i = .deinit) : IssueStopped s t ∨ LineControlled s t := by
  rcases hi with rfl | rfl
  · cases hx
    exact .inr (initSeq_lineControlled s)
  · cases hlc : s.lc with
    | unconfigured =>
      rw [exec_unconfigured (by simp) hlc] at hx
      cases hx
      exact .inl (issueStopped_notReady s)
    | ready =>
      rw [exec_deinit hlc] at hx
      cases hx
      exact .inr (deinitSeq_lineControlled s)

/-- LC and the Line Control draws are INIT's and DEINIT's alone (R26, R182). -/
theorem exec_lc_lineControl {i : Instr} {s t : State} (hx : exec i s = .next t) (hi : i ≠ .init) (hd : i ≠ .deinit) :
    t.lc = s.lc ∧ t.lineControl = s.lineControl := by
  rcases exec_issueStopped_or_ran hx hi hd with ⟨c, k, rfl⟩ | ⟨es, hr⟩
  · exact ⟨rfl, rfl⟩
  · obtain ⟨-, -, hlc, -, -, -, hdraws⟩ := ran_frame hr
    exact ⟨hlc, hdraws⟩

/-- The fields no command writes. -/
theorem exec_frame {i : Instr} {s t : State} (hx : exec i s = .next t) :
    t.params = s.params ∧ t.len = s.len ∧ t.host = s.host ∧ t.answer = s.answer := by
  by_cases hi : i = .init ∨ i = .deinit
  · rcases exec_issueStopped_or_lineControlled hx hi with ⟨c, k, rfl⟩ | h
    · exact ⟨rfl, rfl, rfl, rfl⟩
    · obtain ⟨hp, hl, hh, ha, -⟩ := lineControlled_frame h
      exact ⟨hp, hl, hh, ha⟩
  · obtain ⟨hi, hd⟩ := not_or.1 hi
    rcases exec_issueStopped_or_ran hx hi hd with ⟨c, k, rfl⟩ | ⟨es, hr⟩
    · exact ⟨rfl, rfl, rfl, rfl⟩
    · obtain ⟨hp, hl, -, -, hh, ha, -⟩ := ran_frame hr
      exact ⟨hp, hl, hh, ha⟩

/-- Only READ_BYTE writes RXDATA (R27). -/
theorem exec_rx {i : Instr} {s t : State} (hx : exec i s = .next t) (hi : ∀ f, i ≠ .readByte f) : t.rx = s.rx := by
  cases exec_answered hx with
  | notReady _ _ ht => rw [ht, notReadyIssue_rx]
  | length _ _ _ ht => rw [ht, illegalIssue_rx]
  | init _ ht =>
    obtain ⟨-, -, -, -, hrx, -⟩ := lineControlled_frame (initSeq_lineControlled s)
    rw [ht, hrx]
  | deinit _ _ ht => rw [ht, deinitSeq_eq]
  | start _ _ ht => rw [ht, complete_rx, startSeq_eq]
  | stop _ _ ht => rw [ht, complete_rx, stopSeq_eq]
  | sendByte b _ _ ht => rw [ht, complete_rx, sendByteSeq_eq]
  | waitAck _ _ ht => rw [ht, complete_rx, (waitAckSeq_frame s).2]
  | readByte f h _ _ => exact absurd h (hi f)
  | protocol _ _ _ _ he _ => exact he.rx

/-- Only the read commands write DATA (R52). -/
theorem exec_data {i : Instr} {s t : State} (hx : exec i s = .next t) (hi : i.isProtocolRead = false) :
    t.data = s.data := by
  cases exec_answered hx with
  | notReady _ _ ht => rw [ht, notReadyIssue_data]
  | length _ _ _ ht => rw [ht, illegalIssue_data]
  | init _ ht =>
    obtain ⟨-, -, -, -, -, hd, -⟩ := lineControlled_frame (initSeq_lineControlled s)
    rw [ht, hd]
  | deinit _ _ ht => rw [ht, deinitSeq_eq]
  | start _ _ ht => rw [ht, complete_data, startSeq_eq]
  | stop _ _ ht => rw [ht, complete_data, stopSeq_eq]
  | sendByte b _ _ ht => rw [ht, complete_data, sendByteSeq_eq]
  | waitAck _ _ ht => rw [ht, complete_data, (waitAckSeq_frame s).1]
  | readByte f _ _ ht => rw [ht, complete_data, readByteSeq_eq]
  | protocol _ _ _ _ _ hd => exact hd hi

/-- INIT, DEINIT, START, STOP and SEND_BYTE take no sample (R110 to R112, R180, R181). -/
theorem exec_peer {i : Instr} {s t : State} (hx : exec i s = .next t)
    (hi : i = .init ∨ i = .deinit ∨ i = .start ∨ i = .stop ∨ ∃ b, i = .sendByte b) : t.peer = s.peer := by
  cases exec_answered hx with
  | notReady _ _ ht => rw [ht, notReadyIssue_peer]
  | length _ _ _ ht => rw [ht, illegalIssue_peer]
  | init _ ht =>
    obtain ⟨-, -, -, -, -, -, hp⟩ := lineControlled_frame (initSeq_lineControlled s)
    rw [ht, hp]
  | deinit _ _ ht => rw [ht, deinitSeq_eq]
  | start _ _ ht => rw [ht, complete_peer, startSeq_eq]
  | stop _ _ ht => rw [ht, complete_peer, stopSeq_eq]
  | sendByte b _ _ ht => rw [ht, complete_peer, sendByteSeq_eq]
  | waitAck h _ _ => subst h; simp at hi
  | readByte f h _ _ => subst h; simp at hi
  | protocol h _ _ _ _ _ => rcases hi with rfl | rfl | rfl | rfl | ⟨b, rfl⟩ <;> cases h

/-- A protocol command is ended by an issue check, or ends as `Ended` says. -/
theorem exec_issueStopped_or_ended {i : Instr} {s t : State} (hx : exec i s = .next t) (hp : i.isProtocol = true) :
    IssueStopped s t ∨ ∃ es, Ended s.len.toNat s t es := by
  cases hlc : s.lc with
  | unconfigured =>
    rw [exec_unconfigured (by rintro rfl; cases hp) hlc] at hx
    cases hx
    exact .inl (issueStopped_notReady s)
  | ready =>
    rcases Nat.lt_or_ge s.params.bufBytes s.len.toNat with hn | hn
    · rw [exec_length_over hp hlc hn] at hx
      cases hx
      exact .inl (issueStopped_illegal s)
    · obtain ⟨es, he, -⟩ := exec_protocol_ended hp hlc hn hx
      exact .inr ⟨es, he⟩

theorem isProtocol_of_isProtocolRead {i : Instr} (h : i.isProtocolRead = true) : i.isProtocol = true := by
  cases i <;> simp [Instr.isProtocolRead, Instr.isProtocol] at h ⊢

/-! ### A step at each kind of entry -/

theorem step_access_quiet {s t : State} {a : Access} {rest : List HostEvent} (h : s.host = .access a :: rest)
    (ha : hostAccess a { s with host := rest } = .quiet t) : step s = .next t := by
  simp only [step, fetch, h, ha]

theorem step_issued {s : State} {w : Word} {rest : List HostEvent} {i : Instr}
    (h : s.host = .access (.write32 0x000 w) :: rest) (hd : decode w = .ok i) :
    step s = exec i { s with host := rest, answer := .written } := by
  simp only [step, fetch, h, hostAccess, writeRegister, hd]

theorem step_reset {s : State} {rest : List HostEvent} (h : s.host = .reset :: rest) :
    step s = .next (applyReset { s with host := rest }) := by
  simp only [step, fetch, h]

theorem quiet_lc {s t : State} (h : Quiet s t) : t.lc = s.lc := by
  cases h with
  | answered _ _ _ ht => rw [ht]
  | lenWritten _ ht => rw [ht, writeLen_lc]
  | cellWritten _ _ _ ht => rw [ht, memWrite_lc]

/-- A step at an entry that is no reset and issues no INIT and no DEINIT leaves LC as it was (R26). -/
theorem step_lc {s t : State} {e : HostEvent} {rest : List HostEvent} (h : s.host = e :: rest) (he : e ≠ .reset)
    (hno : ∀ w i, e = .access (.write32 0x000 w) → decode w = .ok i → i ≠ .init ∧ i ≠ .deinit)
    (hx : step s = .next t) : t.lc = s.lc := by
  cases step_stepped hx with
  | idle _ ht => rw [ht]
  | reset _ h' _ =>
    rw [h] at h'
    exact absurd (List.cons.inj h').1 he
  | overlap _ _ _ ht => rw [ht, overlapAccess_lc]
  | quiet _ _ _ hq => rw [quiet_lc hq]
  | illegal _ _ _ _ _ ht => rw [ht, illegalIssue_lc]
  | command w i _ h' hd hx =>
    rw [h] at h'
    obtain ⟨hi, hdi⟩ := hno w i (List.cons.inj h').1 hd
    exact (exec_lc_lineControl hx hi hdi).1

/-! ### The register views -/

/-- STATUS.RESULT stands in bits 2:0 (R24). -/
theorem statusWord_result (s : State) : (statusWord s).extractLsb' 0 3 = s.result.code := by
  have bits : ∀ (r : BitVec 1) (c : BitVec 3), (r.setWidth 32 <<< 4 ||| c.setWidth 32).extractLsb' 0 3 = c := by decide
  exact bits _ _

/-- STATUS.READY stands in bit 4 and reads LC (R24, R26). -/
theorem statusWord_ready (s : State) : (statusWord s).getLsbD 4 = true ↔ s.lc = .ready := by
  have bits : ∀ (r : BitVec 1) (c : BitVec 3), (r.setWidth 32 <<< 4 ||| c.setWidth 32).getLsbD 4 = true ↔ r = 1 := by
    decide
  rw [statusWord, bits, readyBit]
  cases s.lc <;> decide

/-- The other bits of STATUS read 0 (R24). -/
theorem statusWord_reserved (s : State) :
    (statusWord s).getLsbD 3 = false ∧ (statusWord s).extractLsb' 5 27 = 0 := by
  have bits : ∀ (r : BitVec 1) (c : BitVec 3), (r.setWidth 32 <<< 4 ||| c.setWidth 32).getLsbD 3 = false ∧
      (r.setWidth 32 <<< 4 ||| c.setWidth 32).extractLsb' 5 27 = 0 := by decide
  exact bits _ _

/-! ### The power-on state -/

/-- The open BUF_BYTES lies in R6's range, whatever it is. -/
theorem bufBytes_range : 1 ≤ Config.bufBytes ∧ Config.bufBytes ≤ 65535 := by
  have := Config.bufBytesLessOne.isLt
  rw [Config.bufBytes]
  omega

theorem reference_wf : Config.reference.wf := ⟨by decide, bufBytes_range⟩

end Sys2Proof.Machine

namespace Sys2Proof.Proofs

open Machine

/-- Settles O31: every command but INIT and DEINIT is a run of line events or ended by an issue check, and neither touches LC. -/
theorem onlyInitAndDeinitChangeLc : Obligations.OnlyInitAndDeinitChangeLc := by
  unfold Obligations.OnlyInitAndDeinitChangeLc
  refine ⟨fun i s t hx hi hd => (exec_lc_lineControl hx hi hd).1, ?_, statusWord_ready⟩
  intro s t e rest h he hno hx
  exact step_lc h he hno hx

/-- Settles O40: an issue check that ends the command changes no cell, and a run that passed them stores below N and only on OK. -/
theorem readCommandsTouchOnlyTheirCells : Obligations.ReadCommandsTouchOnlyTheirCells := by
  unfold Obligations.ReadCommandsTouchOnlyTheirCells
  intro i s t hr hx
  rcases exec_issueStopped_or_ended hx (isProtocol_of_isProtocolRead hr) with ⟨c, k, rfl⟩ | ⟨es, he⟩
  · exact ⟨fun _ _ => rfl, fun _ => rfl⟩
  · exact ⟨he.cells, he.failed⟩

/-- Settles O41: field by field, from the cases of exec. -/
theorem commandsLeaveTheRestUnchanged : Obligations.CommandsLeaveTheRestUnchanged := by
  unfold Obligations.CommandsLeaveTheRestUnchanged
  intro i s t hx
  obtain ⟨hp, hl, hh, ha⟩ := exec_frame hx
  refine ⟨hp, hl, hh, ha, exec_rx hx, fun hr a => ?_, fun hi hd => (exec_lc_lineControl hx hi hd).2, exec_peer hx⟩
  rw [memRead, exec_data hx hr, memRead]

/-- Settles O8: the entry is fetched as a command and decodes to `i`. -/
theorem stepRunsTheIssuedCommand : Obligations.StepRunsTheIssuedCommand := by
  unfold Obligations.StepRunsTheIssuedCommand
  intro s w rest i h hd
  exact step_issued h hd

/-- Settles O12: each read is a quiet access; STATUS is read bit by bit. -/
theorem registerReadsAnswerTheirFields : Obligations.RegisterReadsAnswerTheirFields := by
  unfold Obligations.RegisterReadsAnswerTheirFields
  intro s rest
  refine ⟨fun h => step_access_quiet h rfl, fun h => step_access_quiet h rfl, fun h => ?_, fun h => step_access_quiet h rfl⟩
  obtain ⟨hbit3, hhigh⟩ := statusWord_reserved s
  refine ⟨statusWord s, step_access_quiet h rfl, ?_, statusWord_ready s, hbit3, hhigh⟩
  rw [statusWord_result]
  cases s.result <;> rfl

/-- Settles O13: each write is a quiet access, and the one to LEN alone stores. -/
theorem registerWritesSetLenOnly : Obligations.RegisterWritesSetLenOnly := by
  unfold Obligations.RegisterWritesSetLenOnly
  intro s rest v
  exact ⟨fun h => step_access_quiet h rfl, fun h => step_access_quiet h rfl, fun h => step_access_quiet h rfl⟩

/-- Settles O17: the reset entry is `applyReset`, whose values the power-on state shares. -/
theorem resetGivesTheResetValues : Obligations.ResetGivesTheResetValues := by
  unfold Obligations.ResetGivesTheResetValues
  refine ⟨fun s rest h => ?_, rfl, rfl, rfl, rfl, rfl, fun _ => rfl, rfl, rfl⟩
  rw [step_reset h]
  rfl

/-- Settles O45: the open BUF_BYTES is in range as one more than a number below 65535; no cell and no event is there yet. -/
theorem powerOnMeetsTheInvariant : Obligations.PowerOnMeetsTheInvariant := by
  unfold Obligations.PowerOnMeetsTheInvariant
  exact ⟨reference_wf, ⟨memory_wf_reset, by simp [State.reset]⟩, linesInv_of_unconfigured rfl rfl, rfl⟩

end Sys2Proof.Proofs
end

section
/-! SUPPORT. Memory access and ordering (20_memory.md): a step with no access to come and at an overlapping access, what a step takes,
the DATA cells of the window, the refused accesses, a write command over the bytes its cells hold, and the statements of that family
(O14, O15, O36, O47, O9, O16). -/

namespace Sys2Proof.Machine

/-! ### A step with no access to come, and at an overlapping access -/

theorem step_idle {s : State} (h : s.host = []) : step s = .next s := by
  simp only [step, fetch, h]

theorem step_overlap {s : State} {a : Access} {rest : List HostEvent} (h : s.host = .overlap a :: rest) :
    step s = .next (overlapAccess { s with host := rest }) := by
  simp only [step, fetch, h]

/-! ### A step takes its entry off the list and nothing more -/

theorem quiet_params_host {s t : State} (h : Quiet s t) : t.params = s.params ∧ t.host = s.host := by
  cases h with
  | answered _ _ _ ht => rw [ht]; exact ⟨rfl, rfl⟩
  | lenWritten _ ht => rw [ht]; exact ⟨rfl, rfl⟩
  | cellWritten _ _ _ ht => rw [ht]; exact ⟨rfl, rfl⟩

theorem step_params_host {s t : State} (hx : step s = .next t) : t.params = s.params ∧ t.host = s.host.tail := by
  cases step_stepped hx with
  | idle h ht => rw [ht, h]; exact ⟨rfl, rfl⟩
  | reset _ h ht => rw [ht, h]; exact ⟨rfl, rfl⟩
  | overlap _ _ h ht => rw [ht, h]; exact ⟨rfl, rfl⟩
  | quiet _ _ h hq => rw [h]; exact quiet_params_host hq
  | illegal _ _ _ h _ ht => rw [ht, h]; exact ⟨rfl, rfl⟩
  | command _ _ _ h _ hx =>
    obtain ⟨hp, -, hh, -⟩ := exec_frame hx
    rw [h]
    exact ⟨hp, hh⟩

/-! ### DATA cells in the window -/

theorem dataIndex_cell {j : Nat} {s : State} (hj : j < s.params.bufBytes) : dataIndex (0x100 + j) s = some j := by
  rw [dataIndex, if_pos (by omega), Nat.add_sub_cancel_left]

theorem dataIndex_outside {off : Nat} {s : State} (h : ¬(0x100 ≤ off ∧ off < 0x100 + s.params.bufBytes)) :
    dataIndex off s = none := by
  rw [dataIndex, if_neg h]

theorem writeDataByte_cell {j : Nat} {s : State} (v : Byte) (hj : j < s.params.bufBytes) :
    writeDataByte (0x100 + j) v s = { memWrite j v s with answer := .written } := by
  simp only [writeDataByte, dataIndex_cell hj]

theorem readDataByte_held {j : Nat} {b : Byte} {s : State} (hj : j < s.params.bufBytes) (hm : memRead j s = some b) :
    readDataByte (0x100 + j) s = { s with answer := .byte b } := by
  simp only [readDataByte, dataIndex_cell hj, hm]

theorem readDataByte_unwritten {j : Nat} {s : State} (hj : j < s.params.bufBytes) (hm : memRead j s = none) :
    readDataByte (0x100 + j) s = { recordFault .unwritten s with answer := .noValue } := by
  simp only [readDataByte, dataIndex_cell hj, hm]

/-! ### Refused accesses -/

theorem writeDataByte_outside {off : Nat} {s : State} (v : Byte)
    (h : ¬(0x100 ≤ off ∧ off < 0x100 + s.params.bufBytes)) : writeDataByte off v s = refuseAccess s := by
  simp only [writeDataByte, dataIndex_outside h]

theorem readDataByte_outside {off : Nat} {s : State} (h : ¬(0x100 ≤ off ∧ off < 0x100 + s.params.bufBytes)) :
    readDataByte off s = refuseAccess s := by
  simp only [readDataByte, dataIndex_outside h]

/-- An offset at which none of the four registers stands (R56). -/
def NoRegister (off : Nat) : Prop := off ≠ 0x000 ∧ off ≠ 0x004 ∧ off ≠ 0x008 ∧ off ≠ 0x00C

theorem readRegister_outside {off : Nat} {s : State} (h : NoRegister off) : readRegister off s = refuseAccess s := by
  obtain ⟨hcmd, hlen, hstatus, hrx⟩ := h
  have none_there : registerAt off s = none := by
    unfold registerAt
    split
    · exact absurd rfl hcmd
    · exact absurd rfl hlen
    · exact absurd rfl hstatus
    · exact absurd rfl hrx
    · rfl
  simp only [readRegister, none_there]

theorem writeRegister_outside {off : Nat} {v : Word} {s : State} (h : NoRegister off) :
    writeRegister off v s = .quiet (refuseAccess s) := by
  obtain ⟨hcmd, hlen, hstatus, hrx⟩ := h
  unfold writeRegister
  split
  · exact absurd rfl hcmd
  · exact absurd rfl hlen
  · exact absurd rfl hstatus
  · exact absurd rfl hrx
  · rfl

theorem noRegister_of_not_permitted {off : Nat}
    (h : (off == 0x000 || off == 0x004 || off == 0x008 || off == 0x00C) = false) : NoRegister off := by
  simpa [NoRegister, and_assoc] using h

/-- Every access R56's map does not permit is refused (R55). -/
theorem hostAccess_not_permitted {a : Access} {s : State} (h : Spec.permitted s.params.bufBytes a = false) :
    hostAccess a s = .quiet (refuseAccess s) := by
  cases a with
  | read8 off => exact congrArg Fetched.quiet (readDataByte_outside (of_decide_eq_false h))
  | read16 off => rfl
  | read32 off => exact congrArg Fetched.quiet (readRegister_outside (noRegister_of_not_permitted h))
  | write8 off v => exact congrArg Fetched.quiet (writeDataByte_outside v (of_decide_eq_false h))
  | write16 off v => rfl
  | write32 off v => exact writeRegister_outside (noRegister_of_not_permitted h)

/-! ### A write command over the bytes its cells hold -/

/-- A write command that passed its checks is WRITE_GEN, whose address and register bytes are its header (R150 to R152). -/
theorem exec_writeGen {i : Instr} {hdr : List Byte} {s : State} (hi : Spec.writeHeader i = some hdr) (hlc : s.lc = .ready)
    (hn : s.len.toNat ≤ s.params.bufBytes) :
    ∃ mode addr g, writeForm addr :: regBytes mode g = hdr ∧ exec i s = writeGen mode addr g s.len.toNat s := by
  cases i <;> cases hi
  case writeCommand a => exact ⟨.noReg, a, 0, rfl, whenLengthFits_fits hlc hn⟩
  case write a r =>
    refine ⟨.adr8, a, r.setWidth 16, ?_, whenLengthFits_fits hlc hn⟩
    have low : (r.setWidth 16).extractLsb' 0 8 = r := by
      rw [← BitVec.setWidth_eq_extractLsb' (by omega), BitVec.setWidth_setWidth_of_le _ (by omega), BitVec.setWidth_eq]
    rw [writeForm, regBytes, low]
  case writeAddress16 a r => exact ⟨.adr16, a, r, rfl, whenLengthFits_fits hlc hn⟩

theorem sendAll_data {bs : List Byte} {s t : State} (h : sendAll bs s = .go t) : t.data = s.data := by
  have w := sendAll_went bs s
  rw [h] at w
  obtain ⟨-, -, hd, -⟩ := w
  exact hd

/-- Where the first cells hold `d`, WRITE_GEN sends its header and `d`, then goes on from the cell after them: no send writes DATA
(R63). -/
theorem writeGen_over_data {mode : RegMode} {addr : Byte} {g : Half} {d : List Byte} {n : Nat} {s : State}
    (hd : ∀ j (h : j < d.length), memRead j s = some d[j]) :
    writeGen mode addr g (d.length + n) s =
      ((sendAll ((writeForm addr :: regBytes mode g) ++ d) (startSeq s)).andThen (fun t => sendData n d.length t)).finish := by
  rw [writeGen, sendAll_append, andThen_assoc]
  cases hx : sendAll (writeForm addr :: regBytes mode g) (startSeq s) with
  | go t =>
    have hdata : t.data = s.data := (sendAll_data hx).trans (by rw [startSeq_eq])
    have cells : ∀ j (h : j < d.length), memRead (0 + j) t = some d[j] := by
      intro j h
      rw [memRead, hdata, Nat.zero_add]
      exact hd j h
    rw [andThen_go, andThen_go, sendData_eq_sendAll d n 0 t cells, Nat.zero_add]
  | abort t => rfl
  | stuck f => rfl

/-- The events of a checked send, in the words of the statements. -/
theorem sendByteEvents_ackEvents (p : Params) (b : Byte) (k : Nat) :
    sendByteEvents p b ++ ackEvents p k = Spec.sentEvents p b k := by
  simp [ackEvents, ackSetupEvents, highPollEvents]

/-- START, then bytes that are each acknowledged. -/
theorem sendAll_start_acked {bs : List Byte} {acks : List Nat} {s : State} (hbs : bs ≠ []) (hlen : acks.length = bs.length)
    (hk : ∀ k ∈ acks, k < s.params.ackPollMax) (ha : Spec.answersAre s (acks.flatMap Spec.ackAnswers)) :
    sendAll bs (startSeq s) = .go { s with
      lines := ⟨some false, some .input, some true⟩
      trace := s.trace ++ (startEvents s.params ++ (List.zipWith (Spec.sentEvents s.params) bs acks).flatten)
      peer := drawSkip (acks.flatMap Spec.ackAnswers).length s.peer } := by
  have hs : startSeq s = { s with
      lines := ⟨some false, some .output, some false⟩, trace := s.trace ++ startEvents s.params } := startSeq_eq s
  have ha' : answers (startSeq s) (acks.flatMap Spec.ackAnswers) := answers_congr (by rw [hs]) ha
  rw [sendAll_acked hlen (by rwa [hs]) ha', hs]
  simp only [sendByteEvents_ackEvents, if_neg hbs, List.append_assoc]

theorem sendData_unwritten {n j : Nat} {s : State} (hn : 0 < n) (hm : memRead j s = none) :
    sendData n j s = .stuck (.unwritten j (recordFault .unwritten s)) := by
  obtain ⟨k, rfl⟩ : ∃ k, n = k + 1 := ⟨n - 1, by omega⟩
  simp only [sendData, hm]

end Sys2Proof.Machine

namespace Sys2Proof.Proofs

open Machine

/-- Settles O14: the access is none the map permits, so it is refused, and a refused access is a quiet one. -/
theorem refusedAccessesRecordOnly : Obligations.RefusedAccessesRecordOnly := by
  unfold Obligations.RefusedAccessesRecordOnly
  intro s a rest h hp
  rw [step_access_quiet h (hostAccess_not_permitted hp)]
  rfl

/-- Settles O15: each access is a quiet one at the cell its offset names; the write is read back by the laws of the cells. -/
theorem hostDataAccesses : Obligations.HostDataAccesses := by
  unfold Obligations.HostDataAccesses
  intro s rest j hj
  refine ⟨fun v h => ⟨setCell j v s.data, ?_, cellAt_setCell_same j v s.data, fun k hk => cellAt_setCell_other v s.data hk⟩,
    fun b h hm => ?_, fun h hm => ?_⟩
  · exact step_access_quiet h (congrArg Fetched.quiet (writeDataByte_cell (s := { s with host := rest }) v hj))
  · exact step_access_quiet h (congrArg Fetched.quiet (readDataByte_held (s := { s with host := rest }) hj hm))
  · exact step_access_quiet h (congrArg Fetched.quiet (readDataByte_unwritten (s := { s with host := rest }) hj hm))

/-- Settles O36: the header and the bytes before the cell are one list of acknowledged sends, after which DATA is as at the issue, so
the next MemRead meets the cell. -/
theorem unwrittenCellStopsAWrite : Obligations.UnwrittenCellStopsAWrite := by
  unfold Obligations.UnwrittenCellStopsAWrite
  intro i hdr d acks s hi hlc hn hlt hd hnone hlen hk ha
  obtain ⟨mode, addr, g, rfl, hx⟩ := exec_writeGen hi hlc hn
  have sent_then_rest : s.len.toNat = d.length + (s.len.toNat - d.length) := by omega
  rw [hx, sent_then_rest, writeGen_over_data hd,
    sendAll_start_acked (by simp) (by rw [hlen, List.length_append]) hk ha, andThen_go]
  refine congrArg Flow.finish (sendData_unwritten (Nat.sub_pos_of_lt hlt) ?_)
  exact hnone

/-- Settles O47: by the cases of a step; a command runs with its write already off the list and keeps list and parameters. -/
theorem stepTakesOneAccess : Obligations.StepTakesOneAccess := by
  unfold Obligations.StepTakesOneAccess
  intro s t hx
  exact step_params_host hx

/-- Settles O9: an empty list is fetched as the state itself. -/
theorem nothingHappensWithoutAnAccess : Obligations.NothingHappensWithoutAnAccess := by
  unfold Obligations.NothingHappensWithoutAnAccess
  intro s h
  exact step_idle h

/-- Settles O16: the overlap entry is `overlapAccess`, which only records. -/
theorem overlappingAccessesRecordOnly : Obligations.OverlappingAccessesRecordOnly := by
  unfold Obligations.OverlappingAccessesRecordOnly
  intro s a rest h
  rw [step_overlap h]
  rfl

end Sys2Proof.Proofs
end

section
/-! SUPPORT. The encoding (30_encoding.md): the decoder as the inverse of the encoder, the three answers it has, R75's rows, the
assembler's fields and the opcode's general sequence, and the statements of that family (O1 to O7, O32). -/

namespace Sys2Proof

/-! ### The word of a command and its fields -/

theorem fieldsOf_encode (i : Instr) : fieldsOf (encode i) = encodeFields i := by
  rw [encode, fieldsOf_pack]

theorem encode_eq_iff {i : Instr} {w : Word} : encode i = w ↔ encodeFields i = fieldsOf w := by
  refine ⟨fun h => by rw [← h, fieldsOf_encode], fun h => fieldsOf_inj ?_⟩
  rw [fieldsOf_encode, h]

/-- REG8 is the low byte of G (R73). -/
theorem low_setWidth (r : Byte) : (r.setWidth 16).extractLsb' 0 8 = r := by
  rw [BitVec.extractLsb'_setWidth_of_le (by omega), BitVec.extractLsb'_eq_self]

/-- A part of a field is a part of the word. -/
theorem extractLsb'_extractLsb' {n start len i k : Nat} (x : BitVec n) (h : i + k ≤ len) :
    (x.extractLsb' start len).extractLsb' i k = x.extractLsb' (start + i) k := by
  apply BitVec.eq_of_getLsbD_eq
  intro j hj
  have inside : i + j < len := by omega
  simp [hj, inside, Nat.add_assoc]

theorem reg8_of_setWidth {r : Byte} {w : Word} (h : r.setWidth 16 = w.extractLsb' 16 16) : r = w.extractLsb' 16 8 := by
  rw [← low_setWidth r, h, extractLsb'_extractLsb' w (by omega)]

theorem reg16_bytes {r : Half} {w : Word} (h : r = w.extractLsb' 16 16) :
    r = w.extractLsb' 16 16 ∧ r.extractLsb' 8 8 = w.extractLsb' 24 8 ∧ r.extractLsb' 0 8 = w.extractLsb' 16 8 := by
  subst h
  exact ⟨rfl, extractLsb'_extractLsb' w (by omega), extractLsb'_extractLsb' w (by omega)⟩

theorem toNat_setWidth_ofNat {n : Nat} (h : n < 2 ^ 8) : ((BitVec.ofNat 8 n).setWidth 16).toNat = n := by
  rw [BitVec.toNat_setWidth, BitVec.toNat_ofNat]
  omega

/-- G is its low byte alone exactly when G[15:8] is 0. -/
theorem setWidth_low_iff {g : Half} : (g.extractLsb' 0 8).setWidth 16 = g ↔ g.extractLsb' 8 8 = 0 := by
  simp only [← BitVec.toNat_inj, BitVec.toNat_setWidth, BitVec.extractLsb'_toNat, Nat.shiftRight_eq_div_pow]
  simp
  omega

theorem highByte_of_and {g : Half} (h : g &&& 0xFF00 = 0) : g.extractLsb' 8 8 = 0 := by
  have high : (g &&& 0xFF00).extractLsb' 8 8 = g.extractLsb' 8 8 := by
    rw [BitVec.extractLsb'_and]
    exact BitVec.and_allOnes
  rw [← high, h]
  rfl

/-- The A bit of ACKF (R72). -/
theorem ofBool_beq_one (a : BitVec 1) : BitVec.ofBool (a == 1#1) = a := by
  revert a
  decide

/-! ### Which fields the must-be-0 checks pass (R72) -/

theorem zeroAZBG_iff {f : Fields} : zeroAZBG f = true ↔ f = ⟨f.op, 0, 0, 0, 0⟩ := by
  rcases f with ⟨op, a, z, b, g⟩
  simp [zeroAZBG, and_assoc]

theorem zeroAZG_iff {f : Fields} : zeroAZG f = true ↔ f = ⟨f.op, 0, 0, f.b, 0⟩ := by
  rcases f with ⟨op, a, z, b, g⟩
  simp [zeroAZG, and_assoc]

theorem zeroZBG_iff {f : Fields} : zeroZBG f = true ↔ f = ⟨f.op, BitVec.ofBool (f.a == 1), 0, 0, 0⟩ := by
  rcases f with ⟨op, a, z, b, g⟩
  simp [zeroZBG, ofBool_beq_one, and_assoc]

theorem zeroAZGHigh_iff {f : Fields} :
    zeroAZGHigh f = true ↔ f = ⟨f.op, 0, 0, f.b, (f.g.extractLsb' 0 8).setWidth 16⟩ := by
  rcases f with ⟨op, a, z, b, g⟩
  rw [Fields.mk.injEq, eq_comm (a := g), setWidth_low_iff]
  simp [zeroAZGHigh, and_assoc]

theorem zeroAZGHigh_reg8 (op : BitVec 4) (b r : Byte) : zeroAZGHigh ⟨op, 0, 0, b, r.setWidth 16⟩ = true := by
  rw [zeroAZGHigh_iff, low_setWidth]

theorem zeroAZ_iff {f : Fields} : zeroAZ f = true ↔ f = ⟨f.op, 0, 0, f.b, f.g⟩ := by
  rcases f with ⟨op, a, z, b, g⟩
  simp [zeroAZ]

/-! ### The answers of the decoder -/

/-- The opcodes of no command (R78, item 1). -/
abbrev NoCommand (op : BitVec 4) : Prop := op = 0x0 ∨ op = 0xE ∨ op = 0xF

/-- R72's must-be-0 table, on the five fields. -/
def Fields.Broken (f : Fields) : Prop := Spec.mustBeZeroBroken f.op f.a f.z f.b f.g

theorem decodeFields_noCommand {f : Fields} (h : NoCommand f.op) : decodeFields f = .error .opcode := by
  rcases f with ⟨op, a, z, b, g⟩
  rcases h with rfl | rfl | rfl <;> rfl

theorem not_broken_of_noCommand {f : Fields} (h : NoCommand f.op) : ¬f.Broken := by
  rcases h with h | h | h <;> simp [Fields.Broken, h]

/-- Every answer of the decoder, once for the whole opcode map (R74, R78). -/
inductive Decoded (f : Fields) : Prop where
  | opcode (hop : NoCommand f.op) (h : decodeFields f = .error .opcode)
  | mustBeZero (hb : f.Broken) (h : decodeFields f = .error .mustBeZero)
  | command (i : Instr) (hb : ¬f.Broken) (he : encodeFields i = f) (h : decodeFields f = .ok i)

/-- The answer at the opcode of a command. -/
theorem decoded_of_ifZero {f : Fields} {zero : Bool} {i : Instr} (h : decodeFields f = ifZero zero i)
    (hb : f.Broken ↔ zero = false) (he : zero = true → encodeFields i = f) : Decoded f := by
  cases zero with
  | false => exact .mustBeZero (hb.2 rfl) h
  | true => exact .command i (by simp [hb]) (he rfl) h

/-! One lemma per row of R72's must-be-0 table. -/

theorem decoded_zeroAZBG {f : Fields} {i : Instr} (hop : f.op = 0x1 ∨ f.op = 0x2 ∨ f.op = 0x3 ∨ f.op = 0x4 ∨ f.op = 0x6)
    (h : decodeFields f = ifZero (zeroAZBG f) i) (he : encodeFields i = ⟨f.op, 0, 0, 0, 0⟩) : Decoded f := by
  refine decoded_of_ifZero h ?_ (fun hz => he.trans (zeroAZBG_iff.1 hz).symm)
  rcases hop with hop | hop | hop | hop | hop <;>
    simp [Fields.Broken, Spec.mustBeZeroBroken, hop, zeroAZBG, or_assoc, imp_iff_not_or]

theorem decoded_zeroAZG {f : Fields} {i : Instr} (hop : f.op = 0x5 ∨ f.op = 0x8 ∨ f.op = 0xD)
    (h : decodeFields f = ifZero (zeroAZG f) i) (he : encodeFields i = ⟨f.op, 0, 0, f.b, 0⟩) : Decoded f := by
  refine decoded_of_ifZero h ?_ (fun hz => he.trans (zeroAZG_iff.1 hz).symm)
  rcases hop with hop | hop | hop <;> simp [Fields.Broken, Spec.mustBeZeroBroken, hop, zeroAZG, or_assoc, imp_iff_not_or]

theorem decoded_zeroZBG {f : Fields} {i : Instr} (hop : f.op = 0x7)
    (h : decodeFields f = ifZero (zeroZBG f) i) (he : encodeFields i = ⟨f.op, BitVec.ofBool (f.a == 1), 0, 0, 0⟩) :
    Decoded f := by
  refine decoded_of_ifZero h ?_ (fun hz => he.trans (zeroZBG_iff.1 hz).symm)
  simp [Fields.Broken, Spec.mustBeZeroBroken, hop, zeroZBG, or_assoc, imp_iff_not_or]

theorem decoded_zeroAZGHigh {f : Fields} {i : Instr} (hop : f.op = 0x9 ∨ f.op = 0xB)
    (h : decodeFields f = ifZero (zeroAZGHigh f) i)
    (he : encodeFields i = ⟨f.op, 0, 0, f.b, (f.g.extractLsb' 0 8).setWidth 16⟩) : Decoded f := by
  refine decoded_of_ifZero h ?_ (fun hz => he.trans (zeroAZGHigh_iff.1 hz).symm)
  rcases hop with hop | hop <;> simp [Fields.Broken, Spec.mustBeZeroBroken, hop, zeroAZGHigh, or_assoc, imp_iff_not_or]

theorem decoded_zeroAZ {f : Fields} {i : Instr} (hop : f.op = 0xA ∨ f.op = 0xC)
    (h : decodeFields f = ifZero (zeroAZ f) i) (he : encodeFields i = ⟨f.op, 0, 0, f.b, f.g⟩) : Decoded f := by
  refine decoded_of_ifZero h ?_ (fun hz => he.trans (zeroAZ_iff.1 hz).symm)
  rcases hop with hop | hop <;> simp [Fields.Broken, Spec.mustBeZeroBroken, hop, zeroAZ, imp_iff_not_or]

theorem opcode_cases (op : BitVec 4) :
    NoCommand op ∨ op = 0x1 ∨ op = 0x2 ∨ op = 0x3 ∨ op = 0x4 ∨ op = 0x5 ∨ op = 0x6 ∨ op = 0x7 ∨ op = 0x8 ∨ op = 0x9 ∨
      op = 0xA ∨ op = 0xB ∨ op = 0xC ∨ op = 0xD := by
  revert op
  decide

theorem decodeFields_decoded (f : Fields) : Decoded f := by
  rcases f with ⟨op, a, z, b, g⟩
  rcases opcode_cases op with
    hop | rfl | rfl | rfl | rfl | rfl | rfl | rfl | rfl | rfl | rfl | rfl | rfl | rfl
  · exact .opcode hop (decodeFields_noCommand hop)
  · exact decoded_zeroAZBG (by simp) rfl rfl
  · exact decoded_zeroAZBG (by simp) rfl rfl
  · exact decoded_zeroAZBG (by simp) rfl rfl
  · exact decoded_zeroAZBG (by simp) rfl rfl
  · exact decoded_zeroAZG (by simp) rfl rfl
  · exact decoded_zeroAZBG (by simp) rfl rfl
  · exact decoded_zeroZBG (by simp) rfl rfl
  · exact decoded_zeroAZG (by simp) rfl rfl
  · exact decoded_zeroAZGHigh (by simp) rfl rfl
  · exact decoded_zeroAZ (by simp) rfl rfl
  · exact decoded_zeroAZGHigh (by simp) rfl rfl
  · exact decoded_zeroAZ (by simp) rfl rfl
  · exact decoded_zeroAZG (by simp) rfl rfl

theorem decodeFields_encodeFields (i : Instr) : decodeFields (encodeFields i) = .ok i := by
  cases i with
  | readByte ackf => cases ackf <;> rfl
  | write addr reg => exact ifZero_ok.2 ⟨zeroAZGHigh_reg8 _ addr reg, congrArg (Instr.write addr) (low_setWidth reg)⟩
  | read addr reg => exact ifZero_ok.2 ⟨zeroAZGHigh_reg8 _ addr reg, congrArg (Instr.read addr) (low_setWidth reg)⟩
  | _ => rfl

/-- A word decodes to a command exactly when it is the word of that command (R79). -/
theorem decode_ok_iff {w : Word} {i : Instr} : decode w = .ok i ↔ encode i = w := by
  constructor
  · intro h
    rw [decode] at h
    cases decodeFields_decoded (fieldsOf w) with
    | opcode _ h' => cases h.symm.trans h'
    | mustBeZero _ h' => cases h.symm.trans h'
    | command j _ he h' =>
      cases h.symm.trans h'
      exact encode_eq_iff.2 he
  · rintro rfl
    rw [decode_encode_eq, decodeFields_encodeFields]

theorem encodeFields_of_decode {w : Word} {i : Instr} (h : decode w = .ok i) : encodeFields i = fieldsOf w :=
  encode_eq_iff.1 (decode_ok_iff.1 h)

theorem decode_opcode_iff {w : Word} : decode w = .error .opcode ↔ NoCommand (fieldsOf w).op := by
  refine ⟨fun h => ?_, fun h => decodeFields_noCommand h⟩
  rw [decode] at h
  cases decodeFields_decoded (fieldsOf w) with
  | opcode hop _ => exact hop
  | mustBeZero _ h' => cases h.symm.trans h'
  | command _ _ _ h' => cases h.symm.trans h'

theorem decode_mustBeZero_iff {w : Word} : decode w = .error .mustBeZero ↔ (fieldsOf w).Broken := by
  rw [decode]
  cases decodeFields_decoded (fieldsOf w) with
  | opcode hop h => simp [h, not_broken_of_noCommand hop]
  | mustBeZero hb h => exact iff_of_true h hb
  | command _ hb _ h => simp [h, hb]

/-! ### R75's rows -/

theorem encode_in_row (i : Instr) : encode i &&& i.mnemonic.maskBits = i.mnemonic.matchBits := by
  have hit : i.mnemonic.rowHits (encode i) = true := by
    cases i with
    | init => exact Laws.EncodesInItsRow.init
    | deinit => exact Laws.EncodesInItsRow.deinit
    | start => exact Laws.EncodesInItsRow.start
    | stop => exact Laws.EncodesInItsRow.stop
    | sendByte byte => exact Laws.EncodesInItsRow.sendByte byte
    | waitAck => exact Laws.EncodesInItsRow.waitAck
    | readByte ackf => exact Laws.EncodesInItsRow.readByte ackf
    | writeCommand addr => exact Laws.EncodesInItsRow.writeCommand addr
    | write addr reg => exact Laws.EncodesInItsRow.write addr reg
    | writeAddress16 addr reg => exact Laws.EncodesInItsRow.writeAddress16 addr reg
    | read addr reg => exact Laws.EncodesInItsRow.read addr reg
    | readAddress16 addr reg => exact Laws.EncodesInItsRow.readAddress16 addr reg
    | readCommand addr => exact Laws.EncodesInItsRow.readCommand addr
  exact eq_of_beq hit

/-- The command of a row with its operands from the fields (R73). -/
def Mnemonic.command (m : Mnemonic) (f : Fields) : Instr :=
  match m with
  | .INIT => .init
  | .DEINIT => .deinit
  | .START => .start
  | .STOP => .stop
  | .SEND_BYTE => .sendByte f.b
  | .WAIT_ACK => .waitAck
  | .READ_BYTE => .readByte (f.a == 1)
  | .WRITE_COMMAND => .writeCommand f.b
  | .WRITE => .write f.b (f.g.extractLsb' 0 8)
  | .WRITE_ADDRESS16 => .writeAddress16 f.b f.g
  | .READ => .read f.b (f.g.extractLsb' 0 8)
  | .READ_ADDRESS16 => .readAddress16 f.b f.g
  | .READ_COMMAND => .readCommand f.b

theorem Mnemonic.command_mnemonic (m : Mnemonic) (f : Fields) : (m.command f).mnemonic = m := by
  cases m <;> rfl

theorem fieldsOf_and (v w : Word) : fieldsOf (v &&& w) =
    ⟨(fieldsOf v).op &&& (fieldsOf w).op, (fieldsOf v).a &&& (fieldsOf w).a, (fieldsOf v).z &&& (fieldsOf w).z,
      (fieldsOf v).b &&& (fieldsOf w).b, (fieldsOf v).g &&& (fieldsOf w).g⟩ := by
  simp [fieldsOf, BitVec.extractLsb'_and]

/-- A word in a row is the word of that row's command: field by field, a mask has all ones where the row fixes the field and none
where it holds an operand, but for the high byte of G in the rows of REG8. -/
theorem encode_command_of_row {m : Mnemonic} {w : Word} (h : w &&& m.maskBits = m.matchBits) :
    encode (m.command (fieldsOf w)) = w := by
  rw [encode_eq_iff]
  have hf : fieldsOf (w &&& m.maskBits) = fieldsOf m.matchBits := congrArg fieldsOf h
  rw [fieldsOf_and] at hf
  generalize fieldsOf w = f at hf
  rcases f with ⟨op, a, z, b, g⟩
  have whole_op : op &&& 0xF#4 = op := BitVec.and_allOnes
  have whole_a : a &&& 1#1 = a := BitVec.and_allOnes
  have whole_z : z &&& 7#3 = z := BitVec.and_allOnes
  have whole_b : b &&& 0xFF#8 = b := BitVec.and_allOnes
  have whole_g : g &&& 0xFFFF#16 = g := BitVec.and_allOnes
  have high_g : g &&& 0xFF00#16 = 0#16 → g.extractLsb' 8 8 = 0#8 := highByte_of_and
  cases m <;>
    simp [fieldsOf, Mnemonic.maskBits, Mnemonic.matchBits, whole_op, whole_a, whole_z, whole_b, whole_g] at hf <;>
    simp [Mnemonic.command, encodeFields, ofBool_beq_one, setWidth_low_iff, high_g, hf]

/-- R75's first sentence: the mnemonic of a row is what exactly the row's words decode to. -/
theorem decode_mnemonic_iff {w : Word} {m : Mnemonic} :
    (∃ i, decode w = .ok i ∧ i.mnemonic = m) ↔ w &&& m.maskBits = m.matchBits := by
  constructor
  · rintro ⟨i, h, rfl⟩
    rw [← decode_ok_iff.1 h]
    exact encode_in_row i
  · intro h
    exact ⟨m.command (fieldsOf w), decode_ok_iff.2 (encode_command_of_row h), m.command_mnemonic _⟩

/-! ### The assembler -/

/-- The formula of R81. -/
theorem pack_toNat {f : Fields} (hz : f.z = 0) :
    (pack f).toNat = f.g.toNat <<< 16 ||| f.b.toNat <<< 8 ||| f.a.toNat <<< 4 ||| f.op.toNat := by
  rcases f with ⟨op, a, z, b, g⟩
  subst hz
  have hg := g.isLt
  have hb := b.isLt
  have ha := a.isLt
  have hop := op.isLt
  simp (disch := omega) [pack, Nat.shiftLeft_eq, Nat.mod_eq_of_lt]

/-- R81's range check, in the words of the statement. -/
theorem fits_iff (l : AsmLine) : l.fits = true ↔ Spec.lineInRange l := by
  cases l <;> simp [AsmLine.fits, Spec.lineInRange, fitsByte, fitsHalf]

/-- Each field of a line that fits has the line's literal as value (R72, R81). -/
theorem encodeFields_command {l : AsmLine} (h : Spec.lineInRange l) :
    (encodeFields l.command).op.toNat = Spec.lineOp l ∧ (encodeFields l.command).a.toNat = Spec.lineA l ∧
      (encodeFields l.command).z = 0 ∧ (encodeFields l.command).b.toNat = Spec.lineB l ∧
      (encodeFields l.command).g.toNat = Spec.lineG l := by
  cases l with
  | init | deinit | start | stop | waitAck => decide
  | readByte ack => cases ack <;> decide
  | sendByte byte => exact ⟨rfl, rfl, rfl, Nat.mod_eq_of_lt h, rfl⟩
  | writeCommand addr => exact ⟨rfl, rfl, rfl, Nat.mod_eq_of_lt h, rfl⟩
  | readCommand addr => exact ⟨rfl, rfl, rfl, Nat.mod_eq_of_lt h, rfl⟩
  | write addr reg => exact ⟨rfl, rfl, rfl, Nat.mod_eq_of_lt h.1, toNat_setWidth_ofNat h.2⟩
  | read addr reg => exact ⟨rfl, rfl, rfl, Nat.mod_eq_of_lt h.1, toNat_setWidth_ofNat h.2⟩
  | writeAddress16 addr reg => exact ⟨rfl, rfl, rfl, Nat.mod_eq_of_lt h.1, Nat.mod_eq_of_lt h.2⟩
  | readAddress16 addr reg => exact ⟨rfl, rfl, rfl, Nat.mod_eq_of_lt h.1, Nat.mod_eq_of_lt h.2⟩

end Sys2Proof

namespace Sys2Proof.Machine

/-- The direction is a function of OP alone (R76). -/
theorem readsOf_encodeFields (i : Instr) : readsOf (encodeFields i).op = i.isProtocolRead := by
  cases i <;> rfl

/-- A protocol command that passed its checks runs its opcode's general sequence (R76, R77). -/
theorem exec_protocolGen {i : Instr} {s : State} (hp : i.isProtocol = true) (hlc : s.lc = .ready)
    (hn : s.len.toNat ≤ s.params.bufBytes) :
    exec i s = protocolGen (encodeFields i).op (encodeFields i).b (encodeFields i).g s.len.toNat s := by
  cases i <;> simp only [Instr.isProtocol, Bool.false_eq_true] at hp <;> exact whenLengthFits_fits hlc hn

end Sys2Proof.Machine

namespace Sys2Proof.Proofs

open Machine

/-- Settles O1: the decoder inverts the encoder; every command is well-formed. -/
theorem decodeEncodeRoundTrip : Obligations.DecodeEncodeRoundTrip := by
  unfold Obligations.DecodeEncodeRoundTrip
  intro i _
  exact decode_ok_iff.2 rfl

/-- Settles O2: the decoder answers a command only where the fields are that command's. -/
theorem everyLegalWordIsItsCommandsWord : Obligations.EveryLegalWordIsItsCommandsWord := by
  unfold Obligations.EveryLegalWordIsItsCommandsWord
  intro w i h
  exact decode_ok_iff.1 h

/-- Settles O3: the first clause is `decode_mnemonic_iff`; the others follow, as a word decodes to one command or is illegal. -/
theorem decodeIsTheMaskMatchTable : Obligations.DecodeIsTheMaskMatchTable := by
  unfold Obligations.DecodeIsTheMaskMatchTable
  refine ⟨fun w m => decode_mnemonic_iff, fun w m m' h h' => ?_, fun w => ?_⟩
  · obtain ⟨i, hi, rfl⟩ := decode_mnemonic_iff.2 h
    obtain ⟨j, hj, rfl⟩ := decode_mnemonic_iff.2 h'
    cases hi.symm.trans hj
    rfl
  · constructor
    · rintro ⟨e, he⟩ m h
      obtain ⟨i, hi, -⟩ := decode_mnemonic_iff.2 h
      cases he.symm.trans hi
    · intro h
      cases hd : decode w with
      | error e => exact ⟨e, rfl⟩
      | ok i => exact absurd (decode_mnemonic_iff.1 ⟨i, hd, rfl⟩) (h i.mnemonic)

/-- Settles O4: from the decoder's three answers, whose conditions exclude each other. -/
theorem illegalWordsAreNamed : Obligations.IllegalWordsAreNamed := by
  unfold Obligations.IllegalWordsAreNamed
  exact fun w => ⟨decode_opcode_iff, decode_mustBeZero_iff⟩

/-- Settles O5: the fields of a word that decodes are its command's, so each operand is the part of the word its field is. -/
theorem operandsAreTheirBits : Obligations.OperandsAreTheirBits := by
  unfold Obligations.OperandsAreTheirBits
  refine ⟨?_, ?_, ?_, ?_, ?_, ?_⟩
  · intro w b h
    exact congrArg Fields.b (encodeFields_of_decode h)
  · intro w f h
    have ha : BitVec.ofBool f = w.extractLsb' 4 1 := congrArg Fields.a (encodeFields_of_decode h)
    have bit : (BitVec.ofBool f).getLsbD 0 = (w.extractLsb' 4 1).getLsbD 0 := congrArg (BitVec.getLsbD · 0) ha
    simpa using bit
  · rintro w a (h | h) <;> exact congrArg Fields.b (encodeFields_of_decode h)
  · rintro w a r (h | h) <;>
      exact ⟨congrArg Fields.b (encodeFields_of_decode h), reg8_of_setWidth (congrArg Fields.g (encodeFields_of_decode h))⟩
  · rintro w a r (h | h) <;>
      exact ⟨congrArg Fields.b (encodeFields_of_decode h), reg16_bytes (congrArg Fields.g (encodeFields_of_decode h))⟩
  · intro s
    have bits : (s.len.setWidth 32).extractLsb' 0 16 = s.len := by
      rw [BitVec.extractLsb'_setWidth_of_le (by omega), BitVec.extractLsb'_eq_self]
    rw [latchedLength, lenWord, bits]

/-- Settles O6: a line that fits is given the word of its command, whose fields have the line's literals. -/
theorem assemblerEmitsTheCommandWord : Obligations.AssemblerEmitsTheCommandWord := by
  unfold Obligations.AssemblerEmitsTheCommandWord
  intro l
  refine ⟨by simp [assemble, fits_iff], fun w h => ?_⟩
  obtain ⟨hfits, rfl⟩ : Spec.lineInRange l ∧ encode l.command = w := by simpa [assemble, fits_iff] using h
  obtain ⟨hop, ha, hz, hb, hg⟩ := encodeFields_command hfits
  have formula := pack_toNat hz
  rw [hop, ha, hb, hg] at formula
  rw [← fieldsOf_encode] at hop ha hz hb hg
  exact ⟨formula, hop, ha, hz, hb, hg, decode_ok_iff.2 rfl⟩

/-- Settles O7: by evaluation of the decoder on ten fixed words. -/
theorem wordsDecodeAsWritten : Obligations.WordsDecodeAsWritten := by
  unfold Obligations.WordsDecodeAsWritten
  decide

/-- Settles O32: the tables by evaluation, and each protocol command as its opcode's general sequence. -/
theorem registerMultiplexer : Obligations.RegisterMultiplexer := by
  unfold Obligations.RegisterMultiplexer
  refine ⟨fun g => ⟨rfl, rfl, rfl⟩, rfl, rfl, rfl, rfl, rfl, rfl, rfl, rfl, rfl, rfl, rfl, rfl,
    fun i _ => readsOf_encodeFields i, fun a r g => ⟨rfl, rfl, rfl, rfl, rfl, rfl⟩, fun i s hp hlc hn => ?_⟩
  exact exec_protocolGen hp hlc hn

end Sys2Proof.Proofs
end

section
/-! SUPPORT. The line engine (40_line_engine.md): the words and operands of its commands, the levels a peer samples, the byte of eight
samples, the wire from each line state R117 allows, what each command answers, and the statements of that family (O20, O21, O22,
O24, O26, O42, O43, O18, O19, O25). -/

namespace Sys2Proof.Machine

/-! ### The words of SEND_BYTE and READ_BYTE -/

theorem sendByte_of_mnemonic {i : Instr} (h : i.mnemonic = .SEND_BYTE) : ∃ b, i = .sendByte b := by
  cases i <;> simp [Instr.mnemonic] at h ⊢

theorem readByte_of_mnemonic {i : Instr} (h : i.mnemonic = .READ_BYTE) : ∃ f, i = .readByte f := by
  cases i <;> simp [Instr.mnemonic] at h ⊢

/-- SEND_BYTE's row of R75. -/
theorem decode_sendByte_iff {w : Word} : (∃ b, decode w = .ok (.sendByte b)) ↔ w &&& 0xFFFF00FF = 0x00000005 := by
  constructor
  · rintro ⟨b, h⟩
    exact decode_mnemonic_iff.1 ⟨_, h, rfl⟩
  · intro h
    obtain ⟨i, hi, hm⟩ := (decode_mnemonic_iff (m := .SEND_BYTE)).2 h
    obtain ⟨b, rfl⟩ := sendByte_of_mnemonic hm
    exact ⟨b, hi⟩

/-- READ_BYTE's row of R75. -/
theorem decode_readByte_iff {w : Word} : (∃ f, decode w = .ok (.readByte f)) ↔ w &&& 0xFFFFFFEF = 0x00000007 := by
  constructor
  · rintro ⟨f, h⟩
    exact decode_mnemonic_iff.1 ⟨_, h, rfl⟩
  · intro h
    obtain ⟨i, hi, hm⟩ := (decode_mnemonic_iff (m := .READ_BYTE)).2 h
    obtain ⟨f, rfl⟩ := readByte_of_mnemonic hm
    exact ⟨f, hi⟩

/-! ### The line states R117 allows -/

theorem idle_or_sclLow_of_settled {l : Lines} (h : l.settled) : l = Lines.idle ∨ l.sclOut = some false := by
  rcases h with rfl | rfl | rfl | rfl
  · exact .inl rfl
  all_goals exact .inr rfl

/-- START is never entered with SCL high and SDA low (R110). -/
theorem not_sclHigh_sdaLow_of_settled {l : Lines} (h : l.settled) :
    ¬(l.sclOut = some true ∧ l.sdaOut = some false) := by
  rintro ⟨hscl, hsda⟩
  rcases idle_or_sclLow_of_settled h with rfl | hlow
  · cases hsda
  · cases hlow.symm.trans hscl

theorem conditions_stop_settled (p : Params) {l : Lines} (h : l.settled) :
    conditions l (stopEvents p) = if l = Lines.idle then [.start, .stop] else [.stop] := by
  rcases idle_or_sclLow_of_settled h with rfl | hlow
  · rw [if_pos rfl, conditions_stop_idle]
  · rw [if_neg (fun e => by rw [e] at hlow; cases hlow), conditions_stop_sclLow p hlow]

/-! ### SEND_BYTE on the wire -/

/-- A peer that samples at the SCL rises of bit cells is sent their bits (R112). -/
theorem clockedLevels_bitCells (p : Params) (bs : List Level) (l : Lines) :
    clockedLevels l (bs.flatMap (bitCell p)) = bs.map some := by
  induction bs generalizing l with
  | nil => rfl
  | cons b bs ih =>
    rw [List.flatMap_cons, clockedLevels_append, ih]
    simp [bitCell, clockedLevels, linesAfter]

theorem clockedLevels_sendByte (p : Params) (b : Byte) (l : Lines) :
    clockedLevels l (sendByteEvents p b) = (bitsMsbFirst b).map some := by
  simp [sendByteEvents, clockedLevels, clockedLevels_bitCells]

theorem conditions_bitCells_sclLow (p : Params) (bs : List Level) {l : Lines} (h : l.sclOut = some false) :
    conditions l (bs.flatMap (bitCell p)) = [] := by
  induction bs generalizing l with
  | nil => rfl
  | cons b bs ih =>
    have moved : conditionOf l (.sda b) = none := conditionOf_sclLow (by simp [h]) _
    rw [List.flatMap_cons, conditions_append, ih (by simp [bitCell, linesAfter])]
    simp only [bitCell, conditions, moved]
    rfl

/-- From the idle bus only the first bit cell moves SDA while SCL is high (R112). -/
theorem conditions_sendByte_idle (p : Params) (b : Byte) :
    conditions Lines.idle (sendByteEvents p b) = if b.getLsbD 7 then [] else [.start] := by
  have first : conditions Lines.idle (.dir .output :: bitCell p (b.getLsbD 7)) =
      if b.getLsbD 7 then [] else [.start] := by
    cases b.getLsbD 7 <;> simp [bitCell, conditions, conditionOf, linesAfter, Lines.idle]
  rw [sendByteEvents, bitsMsbFirst, List.flatMap_cons, ← List.cons_append, conditions_append, first,
    conditions_bitCells_sclLow p _ (by simp [bitCell, linesAfter]), List.append_nil]

/-! ### WAIT_ACK's events in the words of the statements -/

theorem ackEvents_eq_acked (p : Params) (k : Nat) : ackEvents p k = Spec.ackedEvents p k := by
  simp [ackEvents, ackSetupEvents, highPollEvents]

theorem nackEvents_eq_nacked (p : Params) : nackEvents p = Spec.nackedEvents p := by
  simp [nackEvents, ackSetupEvents, highPollEvents]

/-! ### The byte of eight samples -/

theorem shiftIn_getLsbD_zero (r : Byte) (b : Level) : (shiftIn r b).getLsbD 0 = b := by
  simp [shiftIn]

theorem shiftIn_getLsbD_succ (r : Byte) (b : Level) {j : Nat} (hj : j + 1 < 8) :
    (shiftIn r b).getLsbD (j + 1) = r.getLsbD j := by
  simp [shiftIn, hj, BitVec.getLsbD_eq_getElem (show j < 8 by omega)]

/-- Of at most eight bits shifted in, the last is bit 0 and each one before it stands one bit higher (R114). -/
theorem foldl_shiftIn_getLsbD {bs : List Level} (hlen : bs.length ≤ 8) (r : Byte) {k : Nat} (hk : k < bs.length) :
    (bs.foldl shiftIn r).getLsbD (bs.length - 1 - k) = bs[k] := by
  induction bs using List.reverseRecOn with
  | nil => exact absurd hk (Nat.not_lt_zero k)
  | append_singleton bs b ih =>
    rw [List.length_append, List.length_singleton] at hlen hk
    simp only [List.foldl_append, List.foldl_cons, List.foldl_nil, List.length_append, List.length_singleton]
    rcases Nat.lt_or_ge k bs.length with hlt | hge
    · rw [show bs.length + 1 - 1 - k = (bs.length - 1 - k) + 1 by omega, shiftIn_getLsbD_succ _ _ (by omega),
        ih (by omega) hlt, List.getElem_append_left hlt]
    · obtain rfl : k = bs.length := by omega
      rw [Nat.add_sub_cancel, Nat.sub_self, shiftIn_getLsbD_zero, List.getElem_concat_length rfl]

/-- Sample k + 1 of READ_BYTE is bit 7 - k of the byte received (R114). -/
theorem readByteSeq_bit (ackf : Bool) (s : State) {k : Nat} (hk : k < 8) :
    (readByteSeq ackf s).1.getLsbD (7 - k) = peerLevel s k := by
  have hlen : (nextLevels s 8).length = 8 := by simp [nextLevels]
  have bit := foldl_shiftIn_getLsbD hlen.le 0 (hlen ▸ hk)
  rw [readByteSeq_eq]
  simpa [hlen, nextLevels] using bit

/-- Answers given in the queue are the next ones. -/
theorem answers_of_queue {s : State} {st later : List Level} (h : s.peer.queue = st ++ later) : answers s st := by
  refine List.ext_getElem (by simp [nextLevels]) fun j _ hj => ?_
  simp [nextLevels, peerLevel, drawAt, h, List.getElem?_append_left hj, List.getElem?_eq_getElem hj]

/-! ### The master's acknowledge -/

/-- SDA moves while SCL is low, so it makes no condition from any line state (R115, R116). -/
theorem conditions_masterAck (p : Params) (v : Level) (l : Lines) : conditions l (masterAckEvents p v) = [] := by
  cases v <;> simp [masterAckEvents, conditions, conditionOf, linesAfter]

theorem emitAll_masterAck (p : Params) (v : Level) (s : State) :
    emitAll (masterAckEvents p v) s = { s with
      lines := ⟨some false, some .output, some v⟩, trace := s.trace ++ masterAckEvents p v } := by
  simp [emitAll_eq, masterAckEvents, linesAfter]

/-- READ_BYTE ends with ACK_SEQ or NACK_SEQ, as ACKF says (R114). -/
theorem readByteSeq_endsWith (ackf : Bool) (s : State) :
    ∃ r t, readByteSeq ackf s = (r, if ackf then ackSeq t else nackSeq t) :=
  ⟨_, (readBits 8 0 (emit (.dir .input) s)).2, rfl⟩

/-! ### What the commands answer -/

theorem exec_readByte_eq {f : Bool} {s : State} (h : s.lc = .ready) :
    exec (.readByte f) s = .next { s with
      result := .ok
      rx := (readByteSeq f s).1
      lines := ⟨some false, some .output, some (!f)⟩
      trace := s.trace ++ readEvents s.params (nextLevels s 8) f
      peer := drawSkip 8 s.peer } := by
  rw [exec_readByte h, readByteSeq_eq]; rfl

/-- WAIT_ACK, the first low sample within the budget (R113). -/
theorem exec_waitAck_ack {s : State} {k : Nat} (h : s.lc = .ready) (hk : k < s.params.ackPollMax)
    (hi : ∀ j, j < k → peerLevel s j = true) (lo : peerLevel s k = false) :
    exec .waitAck s = .next { s with
      result := .ok
      lines := ⟨some false, some .input, some true⟩
      trace := s.trace ++ Spec.ackedEvents s.params k
      peer := drawSkip (k + 1) s.peer } := by
  rw [exec_waitAck h, waitAckSeq_ack (by omega) hi lo, ackEvents_eq_acked]; rfl

/-- WAIT_ACK, no sample of the budget low (R113). -/
theorem exec_waitAck_nack {s : State} (h : s.lc = .ready) (hmax : 1 ≤ s.params.ackPollMax)
    (hi : ∀ j, j < s.params.ackPollMax → peerLevel s j = true) :
    exec .waitAck s = .next { s with
      result := .nack
      lines := Lines.idle
      trace := s.trace ++ Spec.nackedEvents s.params
      peer := drawSkip s.params.ackPollMax s.peer } := by
  rw [exec_waitAck h, waitAckSeq_nack (fun j hj => hi j (by omega)), nackEvents_eq_nacked, Nat.sub_add_cancel hmax]; rfl

/-- R117's two rows of WAIT_ACK. -/
theorem exec_waitAck_lines {s t : State} (h : s.lc = .ready) (hx : exec .waitAck s = .next t) :
    (t.result = .ok ∧ t.lines = ⟨some false, some .input, some true⟩) ∨ (t.result = .nack ∧ t.lines = Lines.idle) := by
  rw [exec_waitAck h] at hx
  rcases waitAckSeq_cases s with ⟨k, -, -, -, e⟩ | ⟨-, e⟩ <;> rw [e] at hx <;> cases hx
  · exact .inl ⟨rfl, rfl⟩
  · exact .inr ⟨rfl, rfl⟩

/-- R117's row of INIT. -/
theorem initSeq_lines {s : State} (h : (initSeq s).result = .ok) : (initSeq s).lines = Lines.idle := by
  cases hdraw : lineControlDraw s 0 with
  | true => rw [initSeq_ok hdraw]
  | false => rw [initSeq_fail hdraw] at h; cases h

/-! ### Samples and the trace -/

/-- A WAIT_ACK samples with SDA an input only (R113, R118). -/
theorem waitAckSeq_samples (s : State) :
    ∃ es, (waitAckSeq s).2.trace = s.trace ++ es ∧ samplesAreInputs s.lines es = true := by
  rcases waitAckSeq_cases s with ⟨k, -, -, -, e⟩ | ⟨-, e⟩ <;> rw [e]
  · exact ⟨_, rfl, samplesAreInputs_ack _ _ _⟩
  · exact ⟨_, rfl, samplesAreInputs_nack _ _⟩

theorem initSeq_samples (s : State) :
    ∃ es, (initSeq s).trace = s.trace ++ es ∧ samplesAreInputs s.lines es = true := by
  cases hdraw : lineControlDraw s 0 with
  | true => rw [initSeq_ok hdraw]; exact ⟨_, rfl, rfl⟩
  | false => rw [initSeq_fail hdraw]; exact ⟨_, rfl, rfl⟩

theorem exec_samples {i : Instr} {s t : State} (hx : exec i s = .next t) :
    ∃ es, t.trace = s.trace ++ es ∧ samplesAreInputs s.lines es = true := by
  cases exec_answered hx with
  | notReady _ _ ht => exact ⟨[], by simp [ht], rfl⟩
  | length _ _ _ ht => exact ⟨[], by simp [ht], rfl⟩
  | init _ ht => rw [ht]; exact initSeq_samples s
  | deinit _ _ ht => rw [ht, deinitSeq_eq]; exact ⟨_, rfl, rfl⟩
  | start _ _ ht => rw [ht, startSeq_eq]; exact ⟨_, rfl, samplesAreInputs_start _ _⟩
  | stop _ _ ht => rw [ht, stopSeq_eq]; exact ⟨_, rfl, samplesAreInputs_stop _ _⟩
  | sendByte b _ _ ht => rw [ht, sendByteSeq_eq]; exact ⟨_, rfl, samplesAreInputs_sendByte _ _ _⟩
  | waitAck _ _ ht => rw [ht]; exact waitAckSeq_samples s
  | readByte f _ _ ht => rw [ht, readByteSeq_eq]; exact ⟨_, rfl, samplesAreInputs_read _ _ _ _⟩
  | protocol _ _ _ es he _ => exact ⟨es, ran_trace he.ran, he.samples⟩

end Sys2Proof.Machine

namespace Sys2Proof.Proofs

open Machine

/-- Settles O20: the sequence is one DIR and eight bit cells; a cell's SDA event comes before its SCL rise, and from the second cell on
SCL is low there. -/
theorem sendByteShiftsOutMsbFirst : Obligations.SendByteShiftsOutMsbFirst := by
  unfold Obligations.SendByteShiftsOutMsbFirst
  obtain ⟨operand, -⟩ := operandsAreTheirBits
  refine ⟨fun w => decode_sendByte_iff, operand, fun s b hlc => ?_⟩
  refine ⟨sendByteEvents s.params b, ?_, rfl, clockedLevels_sendByte _ _ _, conditions_sendByte_sclLow _ _,
    fun hl hbit => ?_, fun hl hbit => ?_⟩
  · rw [exec_sendByte hlc, sendByteSeq_eq]; rfl
  all_goals rw [hl, conditions_sendByte_idle, hbit]; rfl

/-- Settles O21: by the two ways a WAIT_ACK ends. -/
theorem waitAckPollsWithinItsBudget : Obligations.WaitAckPollsWithinItsBudget := by
  unfold Obligations.WaitAckPollsWithinItsBudget
  refine ⟨by decide, fun s hlc ⟨hmax, _⟩ => ⟨fun k hk hi lo => ?_, fun hi => ?_⟩⟩
  · exact exec_waitAck_ack hlc hk hi lo
  · exact exec_waitAck_nack hlc hmax hi

/-- Settles O22: one of the first ACK_POLL_MAX samples is the first low one, or all are high. -/
theorem waitAckResultIsTheSamples : Obligations.WaitAckResultIsTheSamples := by
  unfold Obligations.WaitAckResultIsTheSamples
  intro s hlc hwf
  obtain ⟨hmax, -⟩ := hwf
  rcases firstLow_or_allHigh s (s.params.ackPollMax - 1) with ⟨k, hk, hi, lo⟩ | hi
  · have hk : k < s.params.ackPollMax := by omega
    refine ⟨_, exec_waitAck_ack hlc hk hi lo, ⟨nofun, fun high => ?_⟩, ⟨fun _ => ⟨k, hk, lo⟩, fun _ => rfl⟩⟩
    cases lo.symm.trans (high k hk)
  · have high : ∀ j, j < s.params.ackPollMax → peerLevel s j = true := fun j hj => hi j (by omega)
    refine ⟨_, exec_waitAck_nack hlc hmax high, ⟨fun _ => high, fun _ => rfl⟩, ⟨nofun, ?_⟩⟩
    rintro ⟨j, hj, lo⟩
    cases lo.symm.trans (high j hj)

/-- Settles O24: the received byte's bits are the samples by induction on the shifts; SDA moves only while SCL is low. -/
theorem readByteShiftsInMsbFirst : Obligations.ReadByteShiftsInMsbFirst := by
  unfold Obligations.ReadByteShiftsInMsbFirst
  obtain ⟨-, operand, -⟩ := operandsAreTheirBits
  refine ⟨fun w => decode_readByte_iff, operand, fun s ackf hlc => ?_⟩
  exact ⟨_, _, fun k hk => readByteSeq_bit ackf s hk, exec_readByte_eq hlc, rfl, conditions_read _ _ _ _⟩

/-- Settles O26: the recorded levels are the byte's bits, which shifted in again give the byte. -/
theorem loopbackPeerReturnsTheByteSent : Obligations.LoopbackPeerReturnsTheByteSent := by
  unfold Obligations.LoopbackPeerReturnsTheByteSent
  intro s b ackf later hlc
  refine ⟨_, sendByteEvents s.params b, bitsMsbFirst b, exec_sendByte hlc, by rw [sendByteSeq_eq]; rfl,
    clockedLevels_sendByte _ _ _, ?_⟩
  obtain ⟨t, ht⟩ : ∃ t, t = complete .ok (sendByteSeq b s) := ⟨_, rfl⟩
  rw [← ht]
  have hready : t.lc = .ready := by rw [ht, sendByteSeq_eq]; exact hlc
  have hanswers : nextLevels { t with peer := ⟨bitsMsbFirst b ++ later, t.peer.used⟩ } 8 = bitsMsbFirst b :=
    answers_of_queue (st := bitsMsbFirst b) (later := later) rfl
  refine ⟨_, exec_readByte_eq hready, ?_, rfl⟩
  show (readByteSeq ackf _).1 = b
  rw [readByteSeq_eq, hanswers, byteOf_bitsMsbFirst]

/-- Settles O42: by the cases of exec, from the samples of each sequence. -/
theorem samplesAreTakenOnlyAsInput : Obligations.SamplesAreTakenOnlyAsInput := by
  unfold Obligations.SamplesAreTakenOnlyAsInput
  intro i s t hx
  exact exec_samples hx

/-- Settles O43: row by row, from what each command answers once its checks are passed. -/
theorem endStatesOfTheLines : Obligations.EndStatesOfTheLines := by
  unfold Obligations.EndStatesOfTheLines
  rintro i s t ⟨hrun, -⟩ hx
  have ready : i ≠ .init → s.lc = .ready := hrun.resolve_left
  refine ⟨?_, ?_, ?_, ?_, ?_, ?_, ?_, ?_⟩
  · rintro rfl hok
    cases hx
    exact initSeq_lines hok
  · rintro rfl
    rw [exec_start (ready nofun), startSeq_eq] at hx
    cases hx; rfl
  · rintro rfl
    rw [exec_stop (ready nofun), stopSeq_eq] at hx
    cases hx; rfl
  · rintro b rfl
    rw [exec_sendByte (ready nofun), sendByteSeq_eq] at hx
    cases hx; rfl
  · rintro rfl hok
    rcases exec_waitAck_lines (ready nofun) hx with ⟨-, hl⟩ | ⟨hnack, -⟩
    · exact hl
    · cases hok.symm.trans hnack
  · rintro rfl hnack
    rcases exec_waitAck_lines (ready nofun) hx with ⟨hok, -⟩ | ⟨-, hl⟩
    · cases hok.symm.trans hnack
    · exact hl
  all_goals
    rintro rfl
    rw [exec_readByte_eq (ready nofun)] at hx
    cases hx; rfl

/-- Settles O18: the sequence's own events; the wire from R117's line states. -/
theorem startMakesItsSequence : Obligations.StartMakesItsSequence := by
  unfold Obligations.StartMakesItsSequence
  refine ⟨by decide, fun s hlc => ⟨startEvents s.params, ?_, rfl, fun hl => ?_⟩⟩
  · rw [exec_start hlc, startSeq_eq]; rfl
  · exact ⟨conditions_start _ hl, not_sclHigh_sdaLow_of_settled hl⟩

/-- Settles O19: the sequence's own events; the wire from the idle bus and from SCL low. -/
theorem stopMakesItsSequence : Obligations.StopMakesItsSequence := by
  unfold Obligations.StopMakesItsSequence
  refine ⟨by decide, fun s hlc => ⟨stopEvents s.params, ?_, rfl, conditions_stop_settled _⟩⟩
  rw [exec_stop hlc, stopSeq_eq]; rfl

/-- Settles O25: the two sequences are one list of events at the two levels of SDA, and READ_BYTE ends with the one ACKF names. -/
theorem ackAndNackSequences : Obligations.AckAndNackSequences := by
  unfold Obligations.AckAndNackSequences
  intro s
  exact ⟨⟨_, emitAll_masterAck _ false s, rfl, conditions_masterAck _ _ _, readByteSeq_endsWith true s⟩,
    ⟨_, emitAll_masterAck _ true s, rfl, conditions_masterAck _ _ _, readByteSeq_endsWith false s⟩⟩

end Sys2Proof.Proofs
end

section
/-! SUPPORT. The register protocol (41_register_protocol.md): a checked send by the peer's answers, a header of sends of which one is
not acknowledged, the opening and the bytes of a read command, and the statements of that family (O34, O35, O37, O38, O39, O33). -/

namespace Sys2Proof.Machine

/-! ### A checked send by the peer's answers -/

/-- The state after a send of `b` acknowledged at sample k + 1 (R142). -/
def afterSend (b : Byte) (k : Nat) (s : State) : State :=
  { s with
    lines := ⟨some false, some .input, some true⟩
    trace := s.trace ++ Spec.sentEvents s.params b k
    peer := drawSkip (Spec.ackAnswers k).length s.peer }

theorem sendChecked_acked {b : Byte} {k : Nat} {s : State} (hk : k < s.params.ackPollMax)
    (ha : answers s (Spec.ackAnswers k)) : sendChecked b s = .go (afterSend b k s) := by
  obtain ⟨hi, lo⟩ := answers_ack ha
  rw [sendChecked_ack (by omega) hi lo, sendByteEvents_ackEvents]
  simp [afterSend]

theorem sendChecked_nacked {b : Byte} {s : State} (hmax : 1 ≤ s.params.ackPollMax)
    (ha : answers s (List.replicate s.params.ackPollMax true)) :
    sendChecked b s = .abort { s with
      result := .nack
      lines := Lines.idle
      trace := s.trace ++ (sendByteEvents s.params b ++ Spec.nackedEvents s.params)
      peer := drawSkip s.params.ackPollMax s.peer } := by
  rw [sendChecked_nack (fun j hj => answers_high ha (by omega)), nackEvents_eq_nacked, Nat.sub_add_cancel hmax]

/-- START, then bytes of which the one after `sent` is the first not acknowledged (R142). -/
theorem sendAll_start_nacked {sent rest : List Byte} {b : Byte} {acks : List Nat} {s : State}
    (hlen : acks.length = sent.length) (hk : ∀ k ∈ acks, k < s.params.ackPollMax) (hmax : 1 ≤ s.params.ackPollMax)
    (ha : answers s (acks.flatMap Spec.ackAnswers ++ List.replicate s.params.ackPollMax true)) :
    sendAll (sent ++ b :: rest) (startSeq s) = .abort { s with
      result := .nack
      lines := Lines.idle
      trace := s.trace ++ (startEvents s.params ++ (List.zipWith (Spec.sentEvents s.params) sent acks).flatten ++
        sendByteEvents s.params b ++ Spec.nackedEvents s.params)
      peer := drawSkip ((acks.flatMap Spec.ackAnswers).length + s.params.ackPollMax) s.peer } := by
  have hp : (startSeq s).params = s.params := by rw [startSeq_eq]
  have ha' := answers_congr (t := startSeq s) (by rw [startSeq_eq]) ha
  rw [sendAll_nacked hlen (by rwa [hp]) (by rwa [hp]) (by rwa [hp]), startSeq_eq]
  simp only [sendByteEvents_ackEvents, nackEvents_eq_nacked, List.append_assoc]

theorem finish_go (s : State) : (Flow.go s).finish =
    .next { s with result := .ok, lines := Lines.idle, trace := s.trace ++ stopEvents s.params } := by
  rw [Flow.finish, stopSeq_eq, complete]

/-! ### A read command -/

/-- The bytes READ_GEN sends before its repeated START: none without a register phase (R145). -/
def openingBytes (mode : RegMode) (addr : Byte) (g : Half) : List Byte :=
  if mode = .noReg then [] else writeForm addr :: regBytes mode g

/-- A read command that passed its checks is READ_GEN, whose opening sends its header (R153 to R155). -/
theorem exec_readGen {i : Instr} {hdr : List Byte} {ra : Byte} {s : State} (hi : Spec.readHeader i = some (hdr, ra))
    (hlc : s.lc = .ready) (hn : s.len.toNat ≤ s.params.bufBytes) :
    ∃ mode addr g, openingBytes mode addr g = hdr ∧ readForm addr = ra ∧ exec i s = readGen mode addr g s.len.toNat s := by
  cases i <;> cases hi
  case read a r =>
    refine ⟨.adr8, a, r.setWidth 16, ?_, rfl, whenLengthFits_fits hlc hn⟩
    show [a, (r.setWidth 16).extractLsb' 0 8] = [a, r]
    rw [low_setWidth]
  case readAddress16 a r => exact ⟨.adr16, a, r, rfl, rfl, whenLengthFits_fits hlc hn⟩
  case readCommand a => exact ⟨.noReg, a, 0, rfl, rfl, whenLengthFits_fits hlc hn⟩

/-- The state after READ_GEN's opening, its bytes acknowledged at the samples `acks` names (R145). -/
def afterOpening (bytes : List Byte) (acks : List Nat) (s : State) : State :=
  { s with
    lines := ⟨some false, some .output, some false⟩
    trace := s.trace ++ Spec.readOpeningEvents s.params bytes acks
    peer := drawSkip (acks.flatMap Spec.ackAnswers).length s.peer }

theorem readOpening_acked {mode : RegMode} {addr : Byte} {g : Half} {acks : List Nat} {s : State}
    (hlen : acks.length = (openingBytes mode addr g).length) (hk : ∀ k ∈ acks, k < s.params.ackPollMax)
    (ha : answers s (acks.flatMap Spec.ackAnswers)) :
    readOpening mode addr g s = .go (afterOpening (openingBytes mode addr g) acks s) := by
  by_cases hmode : mode = .noReg
  · have none_sent : openingBytes mode addr g = [] := if_pos hmode
    rw [none_sent] at hlen ⊢
    obtain rfl : acks = [] := List.length_eq_zero_iff.1 hlen
    rw [readOpening, if_pos hmode, startSeq_eq]
    simp [afterOpening]
  · have sent : openingBytes mode addr g = writeForm addr :: regBytes mode g := if_neg hmode
    rw [sent] at hlen ⊢
    rw [readOpening, if_neg hmode, sendAll_start_acked (by simp) hlen hk ha, andThen_go, startSeq_eq]
    simp [afterOpening]

/-- READ_GEN's opening where the byte after `sent` is the first not acknowledged (R142, R145). -/
theorem readOpening_nacked {mode : RegMode} {addr b : Byte} {g : Half} {sent rest : List Byte} {acks : List Nat} {s : State}
    (hbytes : openingBytes mode addr g = sent ++ b :: rest) (hlen : acks.length = sent.length)
    (hk : ∀ k ∈ acks, k < s.params.ackPollMax) (hmax : 1 ≤ s.params.ackPollMax)
    (ha : answers s (acks.flatMap Spec.ackAnswers ++ List.replicate s.params.ackPollMax true)) :
    readOpening mode addr g s = .abort { s with
      result := .nack
      lines := Lines.idle
      trace := s.trace ++ (startEvents s.params ++ (List.zipWith (Spec.sentEvents s.params) sent acks).flatten ++
        sendByteEvents s.params b ++ Spec.nackedEvents s.params)
      peer := drawSkip ((acks.flatMap Spec.ackAnswers).length + s.params.ackPollMax) s.peer } := by
  have hmode : mode ≠ .noReg := by
    rintro rfl
    exact List.ne_nil_of_length_pos (by simp) hbytes.symm
  have all_bytes : writeForm addr :: regBytes mode g = sent ++ b :: rest := (if_neg hmode).symm.trans hbytes
  rw [readOpening, if_neg hmode, all_bytes, sendAll_start_nacked hlen hk hmax ha, andThen_abort]

/-- READ_GEN where every byte of the opening is acknowledged and the read-form address is not (R142, R145). -/
theorem readGen_address_nacked {mode : RegMode} {addr : Byte} {g : Half} {n : Nat} {acks : List Nat} {s : State}
    (hlen : acks.length = (openingBytes mode addr g).length) (hk : ∀ k ∈ acks, k < s.params.ackPollMax)
    (hmax : 1 ≤ s.params.ackPollMax)
    (ha : answers s (acks.flatMap Spec.ackAnswers ++ List.replicate s.params.ackPollMax true)) :
    readGen mode addr g n s = .next { s with
      result := .nack
      lines := Lines.idle
      trace := s.trace ++ (Spec.readOpeningEvents s.params (openingBytes mode addr g) acks ++
        sendByteEvents s.params (readForm addr) ++ Spec.nackedEvents s.params)
      peer := drawSkip ((acks.flatMap Spec.ackAnswers).length + s.params.ackPollMax) s.peer } := by
  obtain ⟨opened, unacked⟩ := (answers_append (t := afterOpening (openingBytes mode addr g) acks s) rfl).1 ha
  rw [readGen, readOpening_acked hlen hk opened, andThen_go,
    sendChecked_nacked (s := afterOpening _ _ s) hmax unacked, andThen_abort, Flow.finish]
  simp only [afterOpening, drawSkip_skip, List.append_assoc]

theorem receiveEvents_eq_received (p : Params) (ds : List Byte) : receiveEvents p ds = Spec.receivedEvents p ds := by
  induction ds with
  | nil => rfl
  | cons b ds ih => rw [receiveEvents, Spec.receivedEvents, ih]; rfl

/-- READ_GEN where every send is acknowledged and the peer then gives `ds` (R143, R145). -/
theorem readGen_received {mode : RegMode} {addr : Byte} {g : Half} {ds : List Byte} {acks : List Nat} {k : Nat} {s : State}
    (hlen : acks.length = (openingBytes mode addr g).length) (hk : ∀ n ∈ acks ++ [k], n < s.params.ackPollMax)
    (ha : answers s ((acks ++ [k]).flatMap Spec.ackAnswers ++ ds.flatMap bitsMsbFirst)) :
    readGen mode addr g ds.length s = .next { s with
      result := .ok
      lines := Lines.idle
      data := storeAll 0 ds s.data
      trace := s.trace ++ (Spec.readOpeningEvents s.params (openingBytes mode addr g) acks ++
        Spec.sentEvents s.params (readForm addr) k ++ Spec.receivedEvents s.params ds ++ stopEvents s.params)
      peer := drawSkip (((acks ++ [k]).flatMap Spec.ackAnswers).length + 8 * ds.length) s.peer } := by
  have split_answers : (acks ++ [k]).flatMap Spec.ackAnswers = acks.flatMap Spec.ackAnswers ++ Spec.ackAnswers k := by
    rw [List.flatMap_append, List.flatMap_singleton]
  rw [split_answers, List.append_assoc] at ha
  obtain ⟨opened, later⟩ := (answers_append (t := afterOpening (openingBytes mode addr g) acks s) rfl).1 ha
  obtain ⟨addressed, given⟩ := (answers_append (t := afterSend (readForm addr) k _) rfl).1 later
  obtain ⟨l, -, received⟩ := receive_stored (j := 0) given
  rw [readGen, readOpening_acked hlen (fun n hn => hk n (List.mem_append_left _ hn)) opened, andThen_go,
    sendChecked_acked (s := afterOpening _ _ s) (hk k (by simp)) addressed, andThen_go, received, finish_go,
    receiveEvents_eq_received, split_answers]
  simp only [afterSend, afterOpening, drawSkip_skip, List.append_assoc, List.length_append]

/-! ### The device address bytes -/

theorem and_one_eq_zero {a : Byte} (h : a.getLsbD 0 = false) : a &&& 1 = 0 := by
  have low := BitVec.and_one_eq_setWidth_ofBool_getLsbD (x := a)
  rw [h] at low
  exact low

end Sys2Proof.Machine

namespace Sys2Proof.Proofs

open Machine

/-- Settles O34: the header and the bytes of the cells are one list of acknowledged sends after START, and STOP ends it. -/
theorem writeCommandsSendEveryByte : Obligations.WriteCommandsSendEveryByte := by
  unfold Obligations.WriteCommandsSendEveryByte
  intro i hdr d acks s hi hlc hn hd hcells hlen hk ha
  obtain ⟨mode, addr, g, rfl, hx⟩ := exec_writeGen hi hlc hn
  rw [hx, ← hd, ← Nat.add_zero d.length, writeGen_over_data hcells,
    sendAll_start_acked (by simp) (by rw [hlen, List.length_append]) hk ha, andThen_go, sendData, finish_go]
  simp only [List.append_assoc]

/-- Settles O35: the header and the bytes of the cells are one list of sends, of which the one after `sent` aborts. -/
theorem writeCommandsAbortAtFirstNack : Obligations.WriteCommandsAbortAtFirstNack := by
  unfold Obligations.WriteCommandsAbortAtFirstNack
  intro i hdr d sent rest b acks s hi hlc hn hle hcells hwf hbytes hlen hk ha
  obtain ⟨hmax, -⟩ := hwf
  obtain ⟨mode, addr, g, rfl, hx⟩ := exec_writeGen hi hlc hn
  rw [hx, ← Nat.add_sub_cancel' hle, writeGen_over_data hcells, hbytes, sendAll_start_nacked hlen hk hmax ha, andThen_abort,
    Flow.finish]

/-- Settles O37: the answers split into the opening's, the read-form address's and the bytes received, which `storeAll` puts in their
cells. -/
theorem readCommandsStoreEveryByte : Obligations.ReadCommandsStoreEveryByte := by
  unfold Obligations.ReadCommandsStoreEveryByte
  intro i hdr ds ra acks k s hi hlc hn hds hlen hk ha
  obtain ⟨mode, addr, g, rfl, rfl, hx⟩ := exec_readGen hi hlc hn
  refine ⟨storeAll 0 ds s.data, ?_, fun j hj => ?_, fun a hge => ?_⟩
  · rw [hx, ← hds, readGen_received hlen hk ha]
  · have stored := cellAt_storeAll_inside (j := 0) (m := s.data) hj
    rwa [Nat.zero_add] at stored
  · exact cellAt_storeAll_outside (.inr (by omega))

/-- Settles O38: the unacknowledged send is in the opening, or it is the read-form address after it. -/
theorem readCommandsAbortAtFirstNack : Obligations.ReadCommandsAbortAtFirstNack := by
  unfold Obligations.ReadCommandsAbortAtFirstNack
  intro i hdr ra acks s hi hlc hn hwf hk ha
  obtain ⟨hmax, -⟩ := hwf
  obtain ⟨mode, addr, g, rfl, rfl, hx⟩ := exec_readGen hi hlc hn
  refine ⟨fun sent rest b hbytes hlen => ?_, fun hlen => ?_⟩
  · rw [hx, readGen, readOpening_nacked hbytes hlen hk hmax ha, andThen_abort, andThen_abort, Flow.finish]
  · rw [hx, readGen_address_nacked hlen hk hmax ha]

/-- Settles O39: every way a protocol command ends makes one STOP condition: the abort edge's (R241) or the closing STOP's, each from
SCL low. -/
theorem exactlyOneStopPerProtocolCommand : Obligations.ExactlyOneStopPerProtocolCommand := by
  unfold Obligations.ExactlyOneStopPerProtocolCommand
  rintro i s t hp ⟨hrun, hfits⟩ hset hx
  have ready : s.lc = .ready := hrun.resolve_left (by rintro rfl; cases hp)
  obtain ⟨es, ended, -⟩ := exec_protocol_ended hp ready (hfits hp) hx
  exact ⟨es, ran_trace ended.ran, ended.oneStop hset, ended.idle⟩

/-- Settles O33: adding 1 to an even byte carries nowhere, so it sets bit 0. -/
theorem deviceAddressBytes : Obligations.DeviceAddressBytes := by
  unfold Obligations.DeviceAddressBytes
  intro a
  refine ⟨rfl, BitVec.toNat_add a 1, fun heven => ?_⟩
  exact BitVec.add_eq_or_of_and_eq_zero a 1 (and_one_eq_zero heven)

end Sys2Proof.Proofs
end

section
/-! SUPPORT. The lifecycle (42_lifecycle.md): what INIT answers as CONFIGURE answers it, from either lifecycle state, and the statements
of that family (O27, O28, O29, O30). -/

namespace Sys2Proof.Machine

theorem exec_init (s : State) : exec .init s = .next (initSeq s) := rfl

/-- The draws of an INIT (log entry 5), read off its two end states (R180). -/
theorem initSeq_draws (s : State) :
    (initSeq s).lineControl = drawSkip (if lineControlDraw s 0 then 3 else 1) s.lineControl ∧
    (lineControlDraw s 0 = true → (initSeq s).trace = s.trace ++
      [.configure (.ok (lineControlDraw s 1) (lineControlDraw s 2)), .scl true, .sda true]) := by
  cases hdraw : lineControlDraw s 0 with
  | true => rw [initSeq_ok hdraw]; exact ⟨rfl, fun _ => rfl⟩
  | false => rw [initSeq_fail hdraw]; exact ⟨rfl, nofun⟩

/-- No pair of levels is shut out: Line Control may give any (R182). -/
theorem initSeq_given_trace (s : State) (scl sda : Level) (used : Nat) :
    (initSeq { s with lineControl := ⟨[true, scl, sda], used⟩ }).trace =
      s.trace ++ [.configure (.ok scl sda), .scl true, .sda true] :=
  (initSeq_draws { s with lineControl := ⟨[true, scl, sda], used⟩ }).2 rfl

end Sys2Proof.Machine

namespace Sys2Proof.Proofs

open Machine

/-- Settles O27: INIT's two end states as CONFIGURE answers, and the answers ok, `scl`, `sda` for each pair of levels. -/
theorem initConfiguresAndIdlesTheBus : Obligations.InitConfiguresAndIdlesTheBus := by
  unfold Obligations.InitConfiguresAndIdlesTheBus
  refine ⟨decode_ok_iff.2 rfl, fun s => ⟨fun hok => ?_, fun hfail => ?_⟩, fun s scl sda => ?_⟩
  · refine ⟨lineControlDraw s 1, lineControlDraw s 2, drawSkip 3 s.lineControl, _, ?_, rfl, conditions_init _ _ _⟩
    rw [exec_init, initSeq_ok hok]; rfl
  · refine ⟨drawSkip 1 s.lineControl, ?_⟩
    rw [exec_init, initSeq_fail hfail]; rfl
  · exact ⟨⟨[true, scl, sda], 0⟩, _, exec_init _, initSeq_given_trace s scl sda 0⟩

/-- Settles O28: DEINIT's end state is the same for both answers of RELEASE, which its code and its event alone show. -/
theorem deinitReleasesTheBus : Obligations.DeinitReleasesTheBus := by
  unfold Obligations.DeinitReleasesTheBus
  refine ⟨decode_ok_iff.2 rfl, fun s hlc => ⟨drawSkip 1 s.lineControl, ?_⟩⟩
  rw [exec_deinit hlc, deinitSeq_eq]; rfl

/-- Settles O29: the draws INIT's next state has left as CONFIGURE answers, and the one draw of RELEASE. -/
theorem initTakesItsDraws : Obligations.InitTakesItsDraws := by
  unfold Obligations.InitTakesItsDraws
  refine ⟨fun s t hx => ?_, fun s t hlc hx => ?_⟩
  · cases hx
    exact initSeq_draws s
  · rw [exec_deinit hlc, deinitSeq_eq] at hx
    cases hx; rfl

/-- Settles O30: issue check 2 of R203 ends every command but INIT with RESULT and FAULTS alone changed. -/
theorem onlyInitRunsUnconfigured : Obligations.OnlyInitRunsUnconfigured := by
  unfold Obligations.OnlyInitRunsUnconfigured
  exact fun i s hi hlc => exec_unconfigured hi hlc

end Sys2Proof.Proofs
end

section
/-! SUPPORT. Exceptions and fault kinds (60_exceptions.md): how FAULTS can change over a command and over a step, what a command that
passed the issue checks reports, and the statements of that family (O11, O46, O10). -/

namespace Sys2Proof.Machine

/-! ### What a command that passed the issue checks reports -/

theorem ran_faults {s t : State} {es : List Event} (h : Ran s es t) : t.faults = s.faults := by rw [h]

theorem lineControlled_faults {s t : State} (h : LineControlled s t) : t.faults = s.faults := by rw [h]

theorem mayReport_init (s : State) : Spec.mayReport .init (initSeq s).result = true := by
  cases h : lineControlDraw s 0 with
  | true => rw [initSeq_ok h]; rfl
  | false => rw [initSeq_fail h]; rfl

theorem mayReport_deinit (s : State) : Spec.mayReport .deinit (deinitSeq s).result = true := by
  rw [deinitSeq_eq]
  cases lineControlDraw s 0 <;> rfl

theorem mayReport_ackResult (a : AckOutcome) : Spec.mayReport .waitAck (ackResult a) = true := by
  cases a <;> rfl

theorem mayReport_ok (i : Instr) : Spec.mayReport i .ok = true := by
  cases i <;> rfl

theorem mayReport_nack {i : Instr} (hp : i.isProtocol = true) : Spec.mayReport i .nack = true := by
  cases i <;> cases hp <;> rfl

/-- Once the issue checks are passed nothing is left that records a fault kind and still answers a next state (R204). -/
theorem exec_passed_reports {i : Instr} {s t : State} (hready : i = .init ∨ s.lc = .ready)
    (hlength : i.isProtocol = true → s.len.toNat ≤ s.params.bufBytes) (hx : exec i s = .next t) :
    Spec.mayReport i t.result = true ∧ t.faults = s.faults := by
  cases exec_answered hx with
  | notReady hi h _ => rw [hready.resolve_left hi] at h; cases h
  | length hp _ hn _ => exact absurd (hlength hp) (Nat.not_le.2 hn)
  | init hi ht => subst hi ht; exact ⟨mayReport_init s, lineControlled_faults (initSeq_lineControlled s)⟩
  | deinit hi _ ht => subst hi ht; exact ⟨mayReport_deinit s, lineControlled_faults (deinitSeq_lineControlled s)⟩
  | start hi _ ht => subst hi ht; exact ⟨mayReport_ok _, ran_faults (ran_complete .ok (ran_start s))⟩
  | stop hi _ ht => subst hi ht; exact ⟨mayReport_ok _, ran_faults (ran_complete .ok (ran_stop s))⟩
  | sendByte b hi _ ht => subst hi ht; exact ⟨mayReport_ok _, ran_faults (ran_complete .ok (ran_sendByte b s))⟩
  | waitAck hi _ ht =>
    subst hi ht
    obtain ⟨es, hr⟩ := ran_waitAck s
    exact ⟨mayReport_ackResult _, ran_faults (ran_complete _ hr)⟩
  | readByte f hi _ ht => subst hi ht; exact ⟨mayReport_ok _, ran_faults (ran_complete .ok (ran_setRx _ (ran_readByte f s)))⟩
  | protocol hp _ _ _ he _ =>
    refine ⟨?_, ran_faults he.ran⟩
    rcases he.result with hr | hr <;> rw [hr]
    · exact mayReport_ok i
    · exact mayReport_nack hp

/-! ### FAULTS over a command and over a step -/

/-- One access or command records at most one fault kind and takes none away (R208). -/
def FaultSet.Grown (f g : FaultSet) : Prop := g = f ∨ ∃ k, g = f.add k

theorem faultSet_has_of_grown {f g : FaultSet} {k : FaultKind} (h : f.Grown g) (hk : f.has k = true) : g.has k = true := by
  rcases h with rfl | ⟨k', rfl⟩
  · exact hk
  · exact faultSet_add_has hk k'

theorem issueStopped_grown {s t : State} (h : IssueStopped s t) : s.faults.Grown t.faults := by
  obtain ⟨c, k, rfl⟩ := h
  exact .inr ⟨k, rfl⟩

theorem exec_grown {i : Instr} {s t : State} (hx : exec i s = .next t) : s.faults.Grown t.faults := by
  by_cases hi : i = .init ∨ i = .deinit
  · rcases exec_issueStopped_or_lineControlled hx hi with hs | hc
    · exact issueStopped_grown hs
    · exact .inl (lineControlled_faults hc)
  · obtain ⟨hi, hd⟩ := not_or.1 hi
    rcases exec_issueStopped_or_ran hx hi hd with hs | ⟨es, hr⟩
    · exact issueStopped_grown hs
    · exact .inl (ran_faults hr)

theorem quiet_grown {s t : State} (h : Quiet s t) : s.faults.Grown t.faults := by
  cases h with
  | answered _ _ hf ht => rw [ht]; exact hf
  | lenWritten _ ht => rw [ht]; exact .inl rfl
  | cellWritten _ _ _ ht => rw [ht]; exact .inl rfl

theorem step_grown {s t : State} (hx : step s = .next t) : s.faults.Grown t.faults := by
  cases step_stepped hx with
  | idle _ ht => rw [ht]; exact .inl rfl
  | reset _ _ ht => rw [ht]; exact .inl rfl
  | overlap _ _ _ ht => rw [ht]; exact .inr ⟨.concurrent, rfl⟩
  | quiet _ rest _ hq => exact quiet_grown (s := { s with host := rest }) hq
  | illegal _ _ _ _ _ ht => rw [ht]; exact .inr ⟨.illegal, rfl⟩
  | command _ _ rest _ _ hx => exact exec_grown (s := { s with host := rest, answer := .written }) hx

/-! ### Issue check 1 -/

/-- The check that comes before any command is known (R78, R203). -/
theorem step_issued_illegal {s : State} {w : Word} {rest : List HostEvent} {e : Illegal}
    (h : s.host = .access (.write32 0x000 w) :: rest) (hd : decode w = .error e) :
    step s = .next (illegalIssue { s with host := rest, answer := .written }) := by
  simp only [step, fetch, h, hostAccess, writeRegister, hd]

end Sys2Proof.Machine

namespace Sys2Proof.Proofs

open Machine

/-- Settles O11: by the cases of exec, of which the two issue checks are shut out. -/
theorem passedCommandsReportTheirCodes : Obligations.PassedCommandsReportTheirCodes := by
  unfold Obligations.PassedCommandsReportTheirCodes
  intro i s t ⟨hready, hlength⟩ hx
  exact exec_passed_reports hready hlength hx

/-- Settles O46: a step leaves FAULTS as it was or adds one kind, and a reset is of the first sort. -/
theorem faultsAreSticky : Obligations.FaultsAreSticky := by
  unfold Obligations.FaultsAreSticky
  intro s t k hx hk
  exact faultSet_has_of_grown (step_grown hx) hk

/-- Settles O10: each check in turn, on the state the command is issued in. -/
theorem issueChecksRunInOrder : Obligations.IssueChecksRunInOrder := by
  unfold Obligations.IssueChecksRunInOrder
  intro s w rest h
  refine ⟨fun e hd => step_issued_illegal h hd, fun i hd hi hlc => ?_, fun i hd hp hlc hn => ?_, fun i hd _ => step_issued h hd⟩
  · rw [step_issued h hd]
    exact exec_unconfigured hi hlc
  · rw [step_issued h hd]
    exact exec_length_over hp hlc hn

end Sys2Proof.Proofs
end

section
/-! SUPPORT. Reset and hazards (70_reset_and_hazards.md): the abort edge of a WAIT_ACK, the sum of the delays over the event lists
the protocol's statements are written in, over a write and a read command, over every command but WAIT_ACK, and the statements of
that family (O23, O48). -/

namespace Sys2Proof.Machine

/-! ### The abort edge, in the words of the statements -/

theorem conditions_nacked (p : Params) (l : Lines) : conditions l (Spec.nackedEvents p) = [.start, .stop] := by
  rw [← nackEvents_eq_nacked, conditions_nack]

/-! ### The delays of the protocol's event lists -/

theorem waitSum_acked (p : Params) (k : Nat) : waitSum (Spec.ackedEvents p k) = p.tWackSettle + k * p.tPoll := by
  rw [← ackEvents_eq_acked, waitSum_ack]

theorem waitSum_nacked (p : Params) :
    waitSum (Spec.nackedEvents p) = p.tWackSettle + (p.ackPollMax - 1) * p.tPoll + 2 * p.tSettle := by
  rw [← nackEvents_eq_nacked, waitSum_nack]

/-- A SEND_CHECKED acknowledged at sample 1 waits for no poll (R142). -/
theorem waitSum_sent (p : Params) (b : Byte) : waitSum (Spec.sentEvents p b 0) = 24 * p.tBit + p.tWackSettle := by
  rw [Spec.sentEvents, waitSum_append, waitSum_sendByte, waitSum_acked, Nat.zero_mul, Nat.add_zero]

/-- Bytes that are all acknowledged at sample 1. -/
theorem waitSum_allSent (p : Params) (bs : List Byte) :
    waitSum (List.zipWith (Spec.sentEvents p) bs (List.replicate bs.length 0)).flatten =
      bs.length * (24 * p.tBit + p.tWackSettle) := by
  induction bs with
  | nil => rw [List.length_nil, Nat.zero_mul]; rfl
  | cons b bs ih =>
    rw [List.length_cons, List.replicate_succ, List.zipWith_cons_cons, List.flatten_cons, waitSum_append, waitSum_sent, ih,
      Nat.succ_mul bs.length, Nat.add_comm]

/-- A read command's opening has one START, and a second after its register phase (R145). -/
theorem waitSum_readOpening (p : Params) (hdr : List Byte) :
    waitSum (Spec.readOpeningEvents p hdr (List.replicate hdr.length 0)) =
      (if hdr = [] then 2 else 4) * p.tSettle + hdr.length * (24 * p.tBit + p.tWackSettle) := by
  cases hdr with
  | nil => rw [Spec.readOpeningEvents, if_pos rfl, if_pos rfl, List.append_nil, waitSum_start, List.length_nil, Nat.zero_mul,
      Nat.add_zero]
  | cons b bs =>
    rw [Spec.readOpeningEvents, if_neg (List.cons_ne_nil b bs), if_neg (List.cons_ne_nil b bs), waitSum_append, waitSum_append,
      waitSum_allSent, waitSum_start]
    omega

/-- A byte received takes eight bit cells and the master's acknowledge, whichever it is (R114). -/
theorem waitSum_received (p : Params) (ds : List Byte) :
    waitSum (Spec.receivedEvents p ds) = ds.length * (16 * p.tBit + 4 * p.tAck) := by
  rw [← receiveEvents_eq_received]
  induction ds with
  | nil => rw [List.length_nil, Nat.zero_mul]; rfl
  | cons b ds ih =>
    have cells : (bitsMsbFirst b).length = 8 := rfl
    rw [receiveEvents, waitSum_append, waitSum_read, ih, cells, List.length_cons, Nat.succ_mul ds.length]
    omega

/-! ### What the peer answers -/

/-- Low samples acknowledge one check each, at sample 1. -/
theorem answers_ackedAtFirst {s : State} {m : Nat} (h : ∀ k, k < m → peerLevel s k = false) :
    answers s ((List.replicate m 0).flatMap Spec.ackAnswers) := by
  have low : (List.replicate m 0).flatMap Spec.ackAnswers = List.replicate m false := by
    rw [List.flatMap_replicate, Spec.ackAnswers, List.replicate_zero, List.nil_append, List.flatten_replicate_singleton]
  rw [low]
  refine List.eq_replicate_iff.2 ⟨by simp [nextLevels], fun b hb => ?_⟩
  obtain ⟨k, hk, rfl⟩ := List.mem_map.1 hb
  exact h k (by simpa using hk)

/-- Whatever the peer answers are the bits of some bytes: those READ_BYTE would receive (R114). -/
theorem exists_bytesAnswered (n : Nat) (s : State) :
    ∃ ds : List Byte, ds.length = n ∧ answers s (ds.flatMap bitsMsbFirst) := by
  induction n generalizing s with
  | zero => exact ⟨[], rfl, rfl⟩
  | succ n ih =>
    obtain ⟨ds, hlen, later⟩ := ih { s with peer := drawSkip 8 s.peer }
    have first : answers s (bitsMsbFirst (readByteSeq true s).1) := by
      have bit : ∀ k, k < 8 → (readByteSeq true s).1.getLsbD (7 - k) = peerLevel s k := fun _ hk => readByteSeq_bit true s hk
      simp [answers, nextLevels, bitsMsbFirst, List.range_succ, ← bit]
    exact ⟨(readByteSeq true s).1 :: ds, congrArg Nat.succ hlen, (answers_append rfl).2 ⟨first, later⟩⟩

/-! ### The cells of a write command -/

/-- The first `n` cells hold bytes, or there is a first one among them that holds no value. -/
theorem cellsHeld_or_firstUnwritten (s : State) (n : Nat) :
    ∃ d : List Byte, (∀ j (h : j < d.length), memRead j s = some d[j]) ∧
      (d.length = n ∨ d.length < n ∧ memRead d.length s = none) := by
  induction n with
  | zero => exact ⟨[], nofun, .inl rfl⟩
  | succ n ih =>
    obtain ⟨d, held, rfl | ⟨hlt, unwritten⟩⟩ := ih
    · cases hm : memRead d.length s with
      | none => exact ⟨d, held, .inr ⟨Nat.lt_succ_self _, hm⟩⟩
      | some b =>
        refine ⟨d ++ [b], fun j h => ?_, .inl List.length_append⟩
        rw [List.length_append, List.length_singleton] at h
        rcases Nat.lt_succ_iff_lt_or_eq.1 h with hj | rfl
        · rw [List.getElem_append_left hj, held j hj]
        · rw [List.getElem_concat_length rfl, hm]
    · exact ⟨d, held, .inr ⟨Nat.lt_succ_of_lt hlt, unwritten⟩⟩

/-! ### The delays of a command -/

/-- From `s` to `t` the trace grows by events whose WAIT durations sum to `d` (R250). -/
def Delayed (d : Nat) (s t : State) : Prop := ∃ es, t.trace = s.trace ++ es ∧ waitSum es = d

theorem delayed_of_ran {s t : State} {es : List Event} (h : Ran s es t) : Delayed (waitSum es) s t :=
  ⟨es, ran_trace h, rfl⟩

theorem initSeq_delayed (s : State) : Delayed 0 s (initSeq s) := by
  cases h : lineControlDraw s 0 with
  | true => rw [initSeq_ok h]; exact ⟨_, rfl, rfl⟩
  | false => rw [initSeq_fail h]; exact ⟨_, rfl, rfl⟩

theorem deinitSeq_delayed (s : State) : Delayed 0 s (deinitSeq s) := by
  rw [deinitSeq_eq]; exact ⟨_, rfl, rfl⟩

theorem startSeq_delayed (s : State) : Delayed (2 * s.params.tSettle) s (startSeq s) :=
  waitSum_start s.params ▸ delayed_of_ran (ran_start s)

theorem stopSeq_delayed (s : State) : Delayed (2 * s.params.tSettle) s (stopSeq s) :=
  waitSum_stop s.params ▸ delayed_of_ran (ran_stop s)

theorem sendByteSeq_delayed (b : Byte) (s : State) : Delayed (24 * s.params.tBit) s (sendByteSeq b s) :=
  waitSum_sendByte s.params b ▸ delayed_of_ran (ran_sendByte b s)

theorem readByteSeq_delayed (f : Bool) (s : State) :
    Delayed (16 * s.params.tBit + 4 * s.params.tAck) s (readByteSeq f s).2 := by
  refine ⟨_, ran_trace (ran_readByte f s), ?_⟩
  rw [waitSum_read, nextLevels, List.length_map, List.length_range]
  omega

/-- A write command whose checks are all acknowledged at sample 1: it answered a next state, so every cell it read held a byte. -/
theorem exec_write_delayed {i : Instr} {hdr : List Byte} {s t : State} (hi : Spec.writeHeader i = some hdr)
    (hlc : s.lc = .ready) (hn : s.len.toNat ≤ s.params.bufBytes) (hmax : 1 ≤ s.params.ackPollMax)
    (low : ∀ k, k < hdr.length + s.len.toNat → peerLevel s k = false) (hx : exec i s = .next t) :
    Delayed (4 * s.params.tSettle + (hdr.length + s.len.toNat) * (24 * s.params.tBit + s.params.tWackSettle)) s t := by
  obtain ⟨d, held, hd | ⟨hlt, unwritten⟩⟩ := cellsHeld_or_firstUnwritten s s.len.toNat
  · have sent := Proofs.writeCommandsSendEveryByte i hdr d (List.replicate (hdr ++ d).length 0) s hi hlc hn hd held
      (by simp) (by simp; omega) (answers_ackedAtFirst (by rwa [List.length_append, hd]))
    cases hx.symm.trans sent
    refine ⟨_, rfl, ?_⟩
    rw [waitSum_append, waitSum_append, waitSum_start, waitSum_allSent, waitSum_stop, List.length_append, hd]
    omega
  · have stopped := Proofs.unwrittenCellStopsAWrite i hdr d (List.replicate (hdr.length + d.length) 0) s hi hlc hn hlt held
      unwritten (by simp) (by simp; omega) (answers_ackedAtFirst fun k hk => low k (by omega))
    cases hx.symm.trans stopped

/-- A read command whose checks are all acknowledged at sample 1: the sums do not depend on the bytes the peer then gives. -/
theorem exec_read_delayed {i : Instr} {hdr : List Byte} {ra : Byte} {s t : State} (hi : Spec.readHeader i = some (hdr, ra))
    (hlc : s.lc = .ready) (hn : s.len.toNat ≤ s.params.bufBytes) (hmax : 1 ≤ s.params.ackPollMax)
    (low : ∀ k, k < hdr.length + 1 → peerLevel s k = false) (hx : exec i s = .next t) :
    Delayed ((if hdr = [] then 4 else 6) * s.params.tSettle +
      (hdr.length + 1) * (24 * s.params.tBit + s.params.tWackSettle) +
      s.len.toNat * (16 * s.params.tBit + 4 * s.params.tAck)) s t := by
  obtain ⟨ds, hlen, given⟩ := exists_bytesAnswered s.len.toNat { s with
    peer := drawSkip ((List.replicate (hdr.length + 1) 0).flatMap Spec.ackAnswers).length s.peer }
  have checks : List.replicate hdr.length 0 ++ [0] = List.replicate (hdr.length + 1) 0 := List.replicate_succ'.symm
  obtain ⟨m, stored, -, -⟩ := Proofs.readCommandsStoreEveryByte i hdr ds ra (List.replicate hdr.length 0) 0 s hi hlc hn hlen
    (by simp) (by simp; omega) (by rw [checks]; exact (answers_append rfl).2 ⟨answers_ackedAtFirst low, given⟩)
  cases hx.symm.trans stored
  refine ⟨_, rfl, ?_⟩
  rw [waitSum_append, waitSum_append, waitSum_append, waitSum_readOpening, waitSum_sent, waitSum_received, waitSum_stop, hlen,
    Nat.succ_mul hdr.length]
  split <;> omega

/-! ### The table's rows of the protocol commands -/

theorem header_of_protocol {i : Instr} (h : i.isProtocol = true) :
    (∃ hdr, Spec.writeHeader i = some hdr) ∨ ∃ hdr ra, Spec.readHeader i = some (hdr, ra) := by
  cases i <;> cases h
  case writeCommand | write | writeAddress16 => exact .inl ⟨_, rfl⟩
  case read | readAddress16 | readCommand => exact .inr ⟨_, _, rfl⟩

theorem checksOf_write {i : Instr} {hdr : List Byte} (h : Spec.writeHeader i = some hdr) (n : Nat) :
    Spec.checksOf i n = hdr.length + n := by
  cases i <;> cases h <;> rfl

theorem checksOf_read {i : Instr} {hdr : List Byte} {ra : Byte} (h : Spec.readHeader i = some (hdr, ra)) (n : Nat) :
    Spec.checksOf i n = hdr.length + 1 := by
  cases i <;> cases h <;> rfl

theorem budget_write {i : Instr} {hdr : List Byte} (h : Spec.writeHeader i = some hdr) (p : Params) (n : Nat) :
    Spec.budget i p n = 4 * p.tSettle + (hdr.length + n) * (24 * p.tBit + p.tWackSettle) := by
  cases i <;> cases h <;> rfl

theorem budget_read {i : Instr} {hdr : List Byte} {ra : Byte} (h : Spec.readHeader i = some (hdr, ra)) (p : Params) (n : Nat) :
    Spec.budget i p n = (if hdr = [] then 4 else 6) * p.tSettle + (hdr.length + 1) * (24 * p.tBit + p.tWackSettle) +
      n * (16 * p.tBit + 4 * p.tAck) := by
  cases i <;> cases h <;> rfl

theorem exec_protocol_delayed {i : Instr} {s t : State} (hp : i.isProtocol = true) (hlc : s.lc = .ready)
    (hn : s.len.toNat ≤ s.params.bufBytes) (hmax : 1 ≤ s.params.ackPollMax)
    (low : ∀ k, k < Spec.checksOf i s.len.toNat → peerLevel s k = false) (hx : exec i s = .next t) :
    Delayed (Spec.budget i s.params s.len.toNat) s t := by
  rcases header_of_protocol hp with ⟨hdr, hi⟩ | ⟨hdr, ra, hi⟩
  · rw [checksOf_write hi] at low
    rw [budget_write hi]
    exact exec_write_delayed hi hlc hn hmax low hx
  · rw [checksOf_read hi] at low
    rw [budget_read hi]
    exact exec_read_delayed hi hlc hn hmax low hx

/-- Every command but WAIT_ACK takes its row of R250 where its checks, if any, are acknowledged at sample 1. -/
theorem exec_delayed {i : Instr} {s t : State} (hi : i ≠ .waitAck) (hpass : Spec.passesChecks i s)
    (hmax : 1 ≤ s.params.ackPollMax) (low : ∀ k, k < Spec.checksOf i s.len.toNat → peerLevel s k = false)
    (hx : exec i s = .next t) : Delayed (Spec.budget i s.params s.len.toNat) s t := by
  obtain ⟨hready, hlength⟩ := hpass
  cases exec_answered hx with
  | notReady hi h _ => rw [hready.resolve_left hi] at h; cases h
  | length hp _ hn _ => exact absurd (hlength hp) (Nat.not_le.2 hn)
  | init hi ht => subst hi ht; exact initSeq_delayed s
  | deinit hi _ ht => subst hi ht; exact deinitSeq_delayed s
  | start hi _ ht => subst hi ht; exact startSeq_delayed s
  | stop hi _ ht => subst hi ht; exact stopSeq_delayed s
  | sendByte b hi _ ht => subst hi ht; exact sendByteSeq_delayed b s
  | waitAck h _ _ => exact absurd h hi
  | readByte f hi _ ht => subst hi ht; exact readByteSeq_delayed f s
  | protocol hp hlc hn _ _ _ => exact exec_protocol_delayed hp hlc hn hmax low hx

end Sys2Proof.Machine

namespace Sys2Proof.Proofs

open Machine

/-- Settles O23: the events of a WAIT_ACK that sees no low sample, and the abort edge they make from any line state. -/
theorem abortEdgeIsStartThenStop : Obligations.AbortEdgeIsStartThenStop := by
  unfold Obligations.AbortEdgeIsStartThenStop
  intro s hlc ⟨hmax, _⟩ hi
  exact ⟨_, _, exec_waitAck_nack hlc hmax hi, rfl, conditions_nacked s.params s.lines⟩

/-- Settles O48: the sums over what each command answers; the reference values put into the formulas. -/
theorem delayBudget : Obligations.DelayBudget := by
  unfold Obligations.DelayBudget
  refine ⟨fun i s t hi hpass hx ⟨hmax, _⟩ low => ?_, fun s t k hlc hx hk hi lo => ?_, fun s t hlc hx ⟨hmax, _⟩ hi => ?_,
    fun p => ⟨waitSum_masterAck p false, waitSum_masterAck p true⟩, fun p n a r g hsettle hbit hack hpoll hwack hmax => ?_⟩
  · exact exec_delayed hi hpass hmax low hx
  · rw [exec_waitAck_ack hlc hk hi lo] at hx
    cases hx
    exact ⟨_, rfl, waitSum_acked s.params k⟩
  · rw [exec_waitAck_nack hlc hmax hi] at hx
    cases hx
    exact ⟨_, rfl, waitSum_nacked s.params⟩
  · simp only [Spec.budget, hsettle, hbit, hack, hpoll, hwack, hmax, true_and]
    omega

end Sys2Proof.Proofs
end
